-- ==== Sys2Proof/Word.lean ====
section
/-! DEFINITION. The words of the core and the two small value types its rules speak of: the modulus a field command
selects (30_encoding.md R56) and a curve point (00_scope.md R15). Everything else in the core is an unsigned word
(00_scope.md R12). -/

namespace Sys2Proof

/-- A bus word or a command word (20_memory.md R31, 30_encoding.md R53). -/
abbrev Word32 := BitVec 32

/-- The contents of a data register (10_state.md R17). -/
abbrev Word256 := BitVec 256

/-- A byte offset in the 4 KiB register window (20_memory.md R30). -/
abbrev Offset := BitVec 12

/-- A 4-bit index field D, A or B of a command word (30_encoding.md R54). As a data register index it names W0..W15;
as a point register or constant index only its bits [2:0] count (R56). -/
abbrev RegIndex := BitVec 4

/-- The index of a point register pt0..pt7 or of a constant of the ROM (30_encoding.md R56). -/
abbrev Index3 := BitVec 3

/-- The modulus selected by MSEL: the curve prime p or the group order n (30_encoding.md R56). -/
inductive Modulus where
  | p
  | n
  deriving DecidableEq, Repr

/-- A curve point (00_scope.md R15): finite with two integer coordinates, or the point at infinity. -/
inductive Point where
  | infinity
  | finite (x y : Nat)
  deriving DecidableEq, Repr

end Sys2Proof
end

