-- ==== Sys2Proof/Syntax.lean ====
section
/-! DEFINITION. The ten commands (30_encoding.md R57), one constructor per row of spec/opcode_table.json, with the
fields of the command word each uses (R55), destination first. A register, point or constant operand is the 4-bit field
D, A or B as the decoder of R58 returns it; WellFormed says which values the formats of R55 admit. -/

namespace Sys2Proof

inductive Instr where
  /-- MODADD rd, rs1, rs2 (40_field_arith.md R69) -/
  | modadd (m : Modulus) (d a b : RegIndex)
  /-- MODSUB rd, rs1, rs2 (R70) -/
  | modsub (m : Modulus) (d a b : RegIndex)
  /-- MODMUL rd, rs1, rs2 (R71) -/
  | modmul (m : Modulus) (d a b : RegIndex)
  /-- MONTMUL rd, rs1, rs2 (R72) -/
  | montmul (m : Modulus) (d a b : RegIndex)
  /-- MODRED rd, rs1 (R73) -/
  | modred (m : Modulus) (d a : RegIndex)
  /-- MODINV rd, rs1 (R74) -/
  | modinv (m : Modulus) (d a : RegIndex)
  /-- LDC rd, cidx (R75) -/
  | ldc (d c : RegIndex)
  /-- PADD pd, ps1, ps2 (41_point_arith.md R81) -/
  | padd (d a b : RegIndex)
  /-- PDBL pd, ps1 (R82) -/
  | pdbl (d a : RegIndex)
  /-- PMUL pd, ks, ps (42_scalar_mult.md R85): `k` is a data register index, `b` a point register index -/
  | pmul (d k b : RegIndex)
  deriving DecidableEq, Repr

/-- The mnemonic of a command, as 30_encoding.md R57 spells it. -/
def Instr.mnemonic : Instr → String
  | .modadd _ _ _ _ => "MODADD"
  | .modsub _ _ _ _ => "MODSUB"
  | .modmul _ _ _ _ => "MODMUL"
  | .montmul _ _ _ _ => "MONTMUL"
  | .modred _ _ _ => "MODRED"
  | .modinv _ _ _ => "MODINV"
  | .ldc _ _ => "LDC"
  | .padd _ _ _ => "PADD"
  | .pdbl _ _ => "PDBL"
  | .pmul _ _ _ => "PMUL"

end Sys2Proof
end

