-- ==== Sys2Proof/WellFormed.lean ====
section
/-! DEFINITION. Which operand fields the formats of 30_encoding.md R55 admit: a point register field or a constant index
field has bit 3 equal to 0 (R56). Every value of a data register field is admitted. -/

namespace Sys2Proof

/-- A 4-bit field used as a 3-bit index: its bit 3 must be 0 (30_encoding.md R56). -/
def isIndex3 (f : RegIndex) : Bool := !f.getLsbD 3

/-- The operand check of each format (30_encoding.md R55). -/
def Instr.wellFormed : Instr → Bool
  | .modadd _ _ _ _ => true
  | .modsub _ _ _ _ => true
  | .modmul _ _ _ _ => true
  | .montmul _ _ _ _ => true
  | .modred _ _ _ => true
  | .modinv _ _ _ => true
  | .ldc _ c => isIndex3 c
  | .padd d a b => isIndex3 d && isIndex3 a && isIndex3 b
  | .pdbl d a => isIndex3 d && isIndex3 a
  | .pmul d _ b => isIndex3 d && isIndex3 b

/-- The command is one that a word of the table encodes. -/
abbrev WellFormed (i : Instr) : Prop := i.wellFormed = true

end Sys2Proof
end

