-- ==== Sys2Proof/Decode.lean ====
section
/-! DEFINITION. The command word: its fields (30_encoding.md R54), formats (R55), opcode map (R57), decoding (R58), the
illegal words (R59), and an encoder written from the field layout. -/

namespace Sys2Proof

/-! ### Fields of the command word (R54) -/

/-- OPC, bits 31:27. -/
def fieldOPC (c : Word32) : BitVec 5 := c.extractLsb' 27 5
/-- D, bits 26:23. -/
def fieldD (c : Word32) : RegIndex := c.extractLsb' 23 4
/-- A, bits 22:19. -/
def fieldA (c : Word32) : RegIndex := c.extractLsb' 19 4
/-- B, bits 18:15. -/
def fieldB (c : Word32) : RegIndex := c.extractLsb' 15 4
/-- MSEL, bit 14. -/
def fieldMSEL (c : Word32) : BitVec 1 := c.extractLsb' 14 1
/-- Z, bits 13:0. -/
def fieldZ (c : Word32) : BitVec 14 := c.extractLsb' 0 14

/-- MSEL 0 selects p and 1 selects n (R56). -/
def modulusOf (msel : BitVec 1) : Modulus := if msel = 0#1 then .p else .n

/-- The MSEL value that selects a modulus (R56). -/
def mselOf : Modulus → BitVec 1
  | .p => 0#1
  | .n => 1#1

/-! ### Formats (R55) -/

/-- The six formats of R55. -/
inductive Format where
  | fr
  | fu
  | fc
  | fp2
  | fp1
  | fk
  deriving DecidableEq, Repr

/-- The parts of a command word that some format requires to be 0 (R55). -/
inductive ZeroPart where
  | z
  | msel
  | b
  | dBit3
  | aBit3
  | bBit3
  deriving DecidableEq, Repr

/-- The part of `c` is all zero. -/
def ZeroPart.isZero (c : Word32) : ZeroPart → Bool
  | .z => fieldZ c == 0#14
  | .msel => fieldMSEL c == 0#1
  | .b => fieldB c == 0#4
  | .dBit3 => isIndex3 (fieldD c)
  | .aBit3 => isIndex3 (fieldA c)
  | .bBit3 => isIndex3 (fieldB c)

/-- Which parts each format requires to be 0 (R55). -/
def Format.mustBeZero : Format → List ZeroPart
  | .fr => [.z]
  | .fu => [.z, .b]
  | .fc => [.z, .msel, .aBit3, .b]
  | .fp2 => [.z, .msel, .dBit3, .aBit3, .bBit3]
  | .fp1 => [.z, .msel, .dBit3, .aBit3, .b]
  | .fk => [.z, .msel, .dBit3, .bBit3]

/-! ### Decoding (R58, R59) -/

/-- Why a word is illegal (R59). -/
inductive IllegalReason where
  /-- OPC is 0 or at least 11 -/
  | reservedOpcode (opc : BitVec 5)
  /-- a part that the opcode's format requires to be 0 is not -/
  | nonzero (part : ZeroPart)
  deriving DecidableEq, Repr

/-- The answer of the decoder: one row of R57 with its fields, or ILLEGAL (R58). -/
inductive Decoded where
  | command (i : Instr)
  | illegal (why : IllegalReason)
  deriving DecidableEq, Repr

/-- The row of R57 that an opcode selects, with the fields of the word: its format and its command. -/
def rowOf (c : Word32) : Option (Format × Instr) :=
  match (fieldOPC c).toNat with
  | 1 => some (.fr, .modadd (modulusOf (fieldMSEL c)) (fieldD c) (fieldA c) (fieldB c))
  | 2 => some (.fr, .modsub (modulusOf (fieldMSEL c)) (fieldD c) (fieldA c) (fieldB c))
  | 3 => some (.fr, .modmul (modulusOf (fieldMSEL c)) (fieldD c) (fieldA c) (fieldB c))
  | 4 => some (.fr, .montmul (modulusOf (fieldMSEL c)) (fieldD c) (fieldA c) (fieldB c))
  | 5 => some (.fu, .modred (modulusOf (fieldMSEL c)) (fieldD c) (fieldA c))
  | 6 => some (.fu, .modinv (modulusOf (fieldMSEL c)) (fieldD c) (fieldA c))
  | 7 => some (.fc, .ldc (fieldD c) (fieldA c))
  | 8 => some (.fp2, .padd (fieldD c) (fieldA c) (fieldB c))
  | 9 => some (.fp1, .pdbl (fieldD c) (fieldA c))
  | 10 => some (.fk, .pmul (fieldD c) (fieldA c) (fieldB c))
  | _ => none

/-- The decoder (R58): total on 32-bit words, and it names why a word is illegal (R59). -/
def decode (c : Word32) : Decoded :=
  match rowOf c with
  | none => .illegal (.reservedOpcode (fieldOPC c))
  | some (f, i) =>
    match f.mustBeZero.find? (fun part => !part.isZero c) with
    | some part => .illegal (.nonzero part)
    | none => .command i

/-! ### Encoding (R54, R55, R57) -/

/-- The one field layout of R54, with Z = 0. -/
def layout (opc : BitVec 5) (d a b : RegIndex) (msel : BitVec 1) : Word32 :=
  opc ++ d ++ a ++ b ++ msel ++ 0#14

/-- The opcode of each command (R57). -/
def opcode : Instr → BitVec 5
  | .modadd _ _ _ _ => 1
  | .modsub _ _ _ _ => 2
  | .modmul _ _ _ _ => 3
  | .montmul _ _ _ _ => 4
  | .modred _ _ _ => 5
  | .modinv _ _ _ => 6
  | .ldc _ _ => 7
  | .padd _ _ _ => 8
  | .pdbl _ _ => 9
  | .pmul _ _ _ => 10

/-- The encoder: the word of a command, from the patterns of R55. -/
def encode (i : Instr) : Word32 :=
  match i with
  | .modadd m d a b => layout (opcode i) d a b (mselOf m)
  | .modsub m d a b => layout (opcode i) d a b (mselOf m)
  | .modmul m d a b => layout (opcode i) d a b (mselOf m)
  | .montmul m d a b => layout (opcode i) d a b (mselOf m)
  | .modred m d a => layout (opcode i) d a 0#4 (mselOf m)
  | .modinv m d a => layout (opcode i) d a 0#4 (mselOf m)
  | .ldc d c => layout (opcode i) d c 0#4 0#1
  | .padd d a b => layout (opcode i) d a b 0#1
  | .pdbl d a => layout (opcode i) d a 0#4 0#1
  | .pmul d k b => layout (opcode i) d k b 0#1

/-! ### The match and mask of each row (R57), and the decoder of R58's pseudocode -/

/-- A row of the opcode map (R57), and the command it stands for with the fields of a word. -/
structure OpcodeRow where
  mnemonic  : String
  matchBits : Word32
  mask      : Word32
  build     : Word32 → Instr

/-- A row of format FR with the fields of the word `c` (R55). -/
def buildFR (mk : Modulus → RegIndex → RegIndex → RegIndex → Instr) (c : Word32) : Instr :=
  mk (modulusOf (fieldMSEL c)) (fieldD c) (fieldA c) (fieldB c)

/-- A row of format FU with the fields of the word `c` (R55). -/
def buildFU (mk : Modulus → RegIndex → RegIndex → Instr) (c : Word32) : Instr :=
  mk (modulusOf (fieldMSEL c)) (fieldD c) (fieldA c)

/-- The opcode map, digit for digit (R57). -/
def opcodeTable : List OpcodeRow := [
  ⟨"MODADD", 0x08000000#32, 0xF8003FFF#32, buildFR .modadd⟩,
  ⟨"MODSUB", 0x10000000#32, 0xF8003FFF#32, buildFR .modsub⟩,
  ⟨"MODMUL", 0x18000000#32, 0xF8003FFF#32, buildFR .modmul⟩,
  ⟨"MONTMUL", 0x20000000#32, 0xF8003FFF#32, buildFR .montmul⟩,
  ⟨"MODRED", 0x28000000#32, 0xF807BFFF#32, buildFU .modred⟩,
  ⟨"MODINV", 0x30000000#32, 0xF807BFFF#32, buildFU .modinv⟩,
  ⟨"LDC", 0x38000000#32, 0xF847FFFF#32, fun c => .ldc (fieldD c) (fieldA c)⟩,
  ⟨"PADD", 0x40000000#32, 0xFC447FFF#32, fun c => .padd (fieldD c) (fieldA c) (fieldB c)⟩,
  ⟨"PDBL", 0x48000000#32, 0xFC47FFFF#32, fun c => .pdbl (fieldD c) (fieldA c)⟩,
  ⟨"PMUL", 0x50000000#32, 0xFC047FFF#32, fun c => .pmul (fieldD c) (fieldA c) (fieldB c)⟩]

/-- The word tests as a row of the opcode map: `(word AND mask) = match` (R57). -/
def OpcodeRow.fits (r : OpcodeRow) (c : Word32) : Bool := c &&& r.mask == r.matchBits

/-- The decoder as R58 writes it: the first row that fits, with the fields of the word. The machine uses `decode`, which
tests the fields and names what is wrong; that the two agree is a statement. -/
def tableDecode (c : Word32) : Option Instr :=
  (opcodeTable.find? (·.fits c)).map (·.build c)

/-! ### The opcode table's own numbering of bits -/

/-- The command word whose low `nbits` bits are those of `w` and whose other bits are 0. A command is one 32-bit word
(R53), so the table's numbering of bits is the word's own. -/
def tableWord (nbits w : Nat) : Word32 := BitVec.ofNat 32 (w % 2 ^ nbits)

/-- The command the decoder reads from an instruction whose bits are `w`. -/
def decodeTableWord (nbits w : Nat) : Option Instr :=
  if 32 < nbits then none
  else
    match decode (tableWord nbits w) with
    | .command i => some i
    | .illegal _ => none

end Sys2Proof
end

