-- ==== Sys2Proof/Config.lean ====
section
/-! DEFINITION. What an implementation fixes: the curve record CURVE (00_scope.md R6, R7) and the base address BASE of
the register window (00_scope.md R8, 20_memory.md R30). The latency LAT (R8, R11) is no constant here: it is the place
of the engine's turn in the agenda that State holds (log 1). -/

namespace Sys2Proof

/-- The record CURVE (00_scope.md R6): the curve prime, the group order, the coefficients and the base point. -/
structure Curve where
  p  : Nat
  n  : Nat
  a  : Nat
  b  : Nat
  gx : Nat
  gy : Nat
  deriving DecidableEq, Repr

/-- The properties every rule relies on (00_scope.md R7). A record that lacks one of them is outside the spec. -/
structure Curve.Ok (C : Curve) : Prop where
  p_prime : Nat.Prime C.p
  n_prime : Nat.Prime C.n
  p_odd   : C.p % 2 = 1
  n_odd   : C.n % 2 = 1
  p_gt    : 3 < C.p
  p_lt    : C.p < 2 ^ 256
  n_lt    : C.n < 2 ^ 256
  a_lt    : C.a < C.p
  b_lt    : C.b < C.p
  gx_lt   : C.gx < 2 ^ 256
  gy_lt   : C.gy < 2 ^ 256

/-- The default of CURVE: NIST P-256 (00_scope.md R6; the digits are the spec's, which marks them as general knowledge:
log 5). -/
def Config.p256 : Curve where
  p  := 0xFFFFFFFF00000001000000000000000000000000FFFFFFFFFFFFFFFFFFFFFFFF
  n  := 0xFFFFFFFF00000000FFFFFFFFFFFFFFFFBCE6FAADA7179E84F3B9CAC2FC632551
  a  := 0xFFFFFFFF00000001000000000000000000000000FFFFFFFFFFFFFFFFFFFFFFFC
  b  := 0x5AC635D8AA3A93E7B3EBBD55769886BC651D06B0CC53B0F63BCE3C3E27D2604B
  gx := 0x6B17D1F2E12C4247F8BCE6E563A440F277037D812DEB33A0F4A13945D898C296
  gy := 0x4FE342E2FE1A7F9B8EE7EB4A7C0F9E162BCE33576B315ECECBB6406837BF51F5

/-- The default of the parameter CURVE (00_scope.md R6, R8; 92_eei_decisions.md D2). Every definition that reads the
curve takes the record as an argument with this default; `execOn` and `stepOn` of Machine/OnCurve.lean are the machine of
any record, and `exec` and `step`, whose types have no place for it, are the default's. -/
abbrev Config.curve : Curve := Config.p256

/-- Which 4 KiB page of the host's address space the platform gives the core: an OPEN parameter (00_scope.md R8,
93_implementation_defined.md I2), so it has no body here (log 7). -/
opaque Config.basePage : Nat

/-- BASE, the base address of the register window: a multiple of 0x1000 (20_memory.md R30). -/
def Config.base : Nat := Config.basePage * 0x1000

end Sys2Proof
end

