-- ==== Sys2Proof/Machine/State.lean ====
section
/-! DEFINITION. The state of the machine: the record of 10_state.md R16, its reset values (R29), and beside it the two
fields of the model's own (the moves of the environment still to come, and the last answer of the bus port: log 1,
log 3). -/

namespace Sys2Proof.Machine

/-- The response of the bus to a transaction (20_memory.md R31, R32). -/
inductive BusResp where
  | ok
  | err
  deriving DecidableEq, Repr

/-- One transaction of the host: `MemRead(off, 4)` or `MemWrite(off, 4, v)` (20_memory.md R31). -/
inductive Transaction where
  | read (off : Offset)
  | write (off : Offset) (v : Word32)
  deriving DecidableEq, Repr

/-- What the bus port answers: a read returns a value and a response, a write a response (20_memory.md R31). -/
inductive Response where
  | readDone (data : Word32) (r : BusResp)
  | writeDone (r : BusResp)
  deriving DecidableEq, Repr

/-- One move of an agent (00_scope.md R9): a host transaction, the engine's completion step, or a hardware reset, which
the model counts as one atomic step (70_reset_and_hazards.md R100). -/
inductive Move where
  | host (t : Transaction)
  | engine
  | hardReset
  deriving DecidableEq, Repr

/-- The registers of the window (20_memory.md R33); `word r j` is word `j` of W[r] (R40). -/
inductive WindowReg where
  | id
  | ctrl
  | status
  | cmd
  | inf
  | word (r : RegIndex) (j : Index3)
  | reserved
  deriving DecidableEq, Repr

/-- The result codes a command can end with (60_exceptions.md R89). -/
inductive ResultCode where
  | ok
  | pointAtInfinity
  | invalidScalarResult
  | noInverse
  | illegalCmd
  deriving DecidableEq, Repr

/-- The state (10_state.md R16). -/
structure State where
  /-- W[0..15] (R17) -/
  w        : Vector Word256 16
  /-- INF, the Infinity flags of pt0..pt7 (R19) -/
  inf      : BitVec 8
  /-- CTRL.IRQ_EN (R23) -/
  irqEn    : Bool
  /-- STATUS.BUSY (R22) -/
  busy     : Bool
  /-- STATUS.DONE (R22) -/
  done     : Bool
  /-- STATUS.BUSY_ERR (R22) -/
  busyErr  : Bool
  /-- STATUS.RESULT (R22) -/
  result   : BitVec 4
  /-- CMD (R24) -/
  cmd      : Word32
  /-- the command in flight (R25) -/
  pending  : Option Word32
  /-- MODEL'S OWN (log 1): the moves of the agents still to come, oldest first -/
  agenda   : List Move
  /-- MODEL'S OWN (log 3): what the bus port answered to the last host transaction -/
  response : Option Response
  deriving DecidableEq, Repr

/-- The machine stops with a fault: NEVER. The core never traps, and every state and every input has a defined outcome
(60_exceptions.md R88, 93_implementation_defined.md), so nothing raises a fault and this type has no constructor
(log 11; safe). -/
inductive Fault where
  deriving DecidableEq, Repr

/-- No meaning for an instruction. -/
inductive Refusal where
  /-- Raised only by an arm of `exec` for a command that has no meaning yet; no arm does (safe: it stops where the
  hardware goes on). -/
  | notModelled (mnemonic : String)
  deriving DecidableEq, Repr

/-- The machine right after reset: every field of R16 at the value of 10_state.md R29. No move is waiting and the bus
has answered nothing (log 1, log 3). -/
def State.reset : State where
  w        := Vector.replicate 16 0#256
  inf      := 0#8
  irqEn    := false
  busy     := false
  done     := false
  busyErr  := false
  result   := 0#4
  cmd      := 0#32
  pending  := none
  agenda   := []
  response := none

end Sys2Proof.Machine
end

