-- ==== Sys2Proof/Machine/Flags.lean ====
section
/-! DEFINITION. The status flags of the core (10_state.md R22), the STATUS word (20_memory.md R37), the CTRL word (R36),
the result codes (60_exceptions.md R89) and the interrupt output (R94). The core has no other flag. -/

namespace Sys2Proof.Machine

/-- The number of a result code (60_exceptions.md R89). -/
def ResultCode.bits : ResultCode → BitVec 4
  | .ok => 0
  | .pointAtInfinity => 1
  | .invalidScalarResult => 2
  | .noInverse => 3
  | .illegalCmd => 4

/-- A flag as a one-bit word. -/
def flagBit (f : Bool) : BitVec 1 := if f then 1#1 else 0#1

/-- A read of STATUS: {zext_24(0), RESULT[3:0], 0b0, BUSY_ERR, DONE, BUSY} (20_memory.md R37). -/
def State.statusWord (s : State) : Word32 :=
  0#24 ++ s.result ++ 0#1 ++ flagBit s.busyErr ++ flagBit s.done ++ flagBit s.busy

/-- A read of CTRL: zext_32(IRQ_EN); SOFT_RESET reads 0 (20_memory.md R36). -/
def State.ctrlWord (s : State) : Word32 := (flagBit s.irqEn).zeroExtend 32

/-- A write to STATUS: bit 1 clears DONE and bit 2 clears BUSY_ERR; BUSY and RESULT ignore writes (20_memory.md R37). -/
def State.writeStatus (s : State) (v : Word32) : State :=
  { s with
    done := if v.getLsbD 1 then false else s.done
    busyErr := if v.getLsbD 2 then false else s.busyErr }

/-- The interrupt output: IRQ_EN AND DONE, a level (60_exceptions.md R94). -/
def State.irq (s : State) : Bool := s.irqEn && s.done

end Sys2Proof.Machine
end

