-- ==== Sys2Proof/Machine/Ops.lean ====
section
/-! DEFINITION. The named operations on the registers: W and its 32-bit slices (00_scope.md R14, 20_memory.md R40), INF
(10_state.md R19), issue (30_encoding.md R63), the end of a command (`finish` and `raise`, 00_scope.md R14 and
30_encoding.md R64), the acknowledgement (60_exceptions.md R96) and reset (70_reset_and_hazards.md R100, R101).
The core takes no exception (R88, R95): the one shared way a command reports a failure is `State.raiseCode`, and what
stands for a return is `State.acknowledge`. -/

namespace Sys2Proof.Machine

/-! ### Data registers -/

/-- `W[r]` (00_scope.md R14). -/
def State.readW (s : State) (r : RegIndex) : Word256 := s.w[r.toNat]

/-- `W[r] <- v` (00_scope.md R14). -/
def State.writeW (s : State) (r : RegIndex) (v : Word256) : State :=
  { s with w := s.w.set r.toNat v }

/-- The lowest bit of word `j` of a 256-bit value: word 0 is the most significant (20_memory.md R40). -/
def sliceLow (j : Index3) : Nat := 224 - 32 * j.toNat

/-- Word `j` of a 256-bit value: the slice [255 − 32j : 224 − 32j] (20_memory.md R40). -/
def getSlice (x : Word256) (j : Index3) : Word32 := x.extractLsb' (sliceLow j) 32

/-- `x` with word `j` replaced by `v` and the other 224 bits unchanged (20_memory.md R40). -/
def setSlice (x : Word256) (j : Index3) (v : Word32) : Word256 :=
  (x &&& ~~~((0xFFFFFFFF#32).zeroExtend 256 <<< sliceLow j)) ||| (v.zeroExtend 256 <<< sliceLow j)

/-! ### Infinity flags -/

/-- `INF[i]` (00_scope.md R14). -/
def State.readInf (s : State) (i : Index3) : Bool := s.inf.getLsbD i.toNat

/-- `x` with bit `i` set or cleared. -/
def setBit8 (x : BitVec 8) (i : Index3) (b : Bool) : BitVec 8 :=
  if b then x ||| (1#8 <<< i.toNat) else x &&& ~~~(1#8 <<< i.toNat)

/-- `INF[i] <- b` (00_scope.md R14). -/
def State.writeInf (s : State) (i : Index3) (b : Bool) : State :=
  { s with inf := setBit8 s.inf i b }

/-! ### The life of a command -/

/-- Issue of the word `c` (30_encoding.md R63). RESULT is not changed. -/
def State.issue (s : State) (c : Word32) : State :=
  { s with cmd := c, pending := some c, busy := true, done := false }

/-- `finish(code)`: the end of the running command, after its register writes (00_scope.md R14, 30_encoding.md R64). -/
def State.finish (s : State) (code : ResultCode) : State :=
  { s with pending := none, busy := false, done := true, result := code.bits }

/-- `raise CODE()`: the end of a command that writes no register (00_scope.md R14). -/
def State.raiseCode (s : State) (code : ResultCode) : State := s.finish code

/-- The word the host writes to STATUS to acknowledge a completion (60_exceptions.md R96). -/
def ackWord : Word32 := 0x00000002#32

/-- The acknowledgement of a completion: W1C of DONE (60_exceptions.md R96). -/
def State.acknowledge (s : State) : State := s.writeStatus ackWord

/-! ### Reset -/

/-- Every field of 10_state.md R16 at its reset value (R29); a pending command is discarded. The environment's own
fields stay (log 4). -/
def State.resetCore (s : State) : State :=
  { State.reset with agenda := s.agenda, response := s.response }

end Sys2Proof.Machine
end

