-- ==== Sys2Proof/Machine/Bus.lean ====
section
/-! DEFINITION. The slave bus port: the register window (20_memory.md R30 to R42) and the host's transactions on it. -/

namespace Sys2Proof.Machine

/-! ### Addresses -/

/-- The host's byte address of an offset of the window (20_memory.md R30). -/
def hostAddress (off : Offset) : Nat := Config.base + off.toNat

/-- The offset the core decodes from a host byte address: its low 12 bits (20_memory.md R30). -/
def offsetOf (addr : Nat) : Offset := BitVec.ofNat 12 addr

/-- The register at an aligned offset (20_memory.md R33, R40). -/
def decodeOffset (off : Offset) : WindowReg :=
  let o := off.toNat
  if o = 0x000 then .id
  else if o = 0x004 then .ctrl
  else if o = 0x008 then .status
  else if o = 0x00C then .cmd
  else if o = 0x010 then .inf
  else if 0x100 ≤ o ∧ o < 0x300 then
    .word (BitVec.ofNat 4 ((o - 0x100) / 32)) (BitVec.ofNat 3 ((o - 0x100) % 32 / 4))
  else .reserved

/-- The offset of word `j` of W[r]: 0x100 + 32·r + 4·j (20_memory.md R40). -/
def wordOffset (r : RegIndex) (j : Index3) : Offset := BitVec.ofNat 12 (0x100 + 32 * r.toNat + 4 * j.toNat)

def offID     : Offset := 0x000#12
def offCTRL   : Offset := 0x004#12
def offSTATUS : Offset := 0x008#12
def offCMD    : Offset := 0x00C#12
def offINF    : Offset := 0x010#12

/-- An offset is aligned when its bits [1:0] are 00 (20_memory.md R32). -/
def aligned (off : Offset) : Bool := off.extractLsb' 0 2 == 0#2

/-! ### Registers -/

/-- The ID value (20_memory.md R35, 00_scope.md R1). -/
def idWord : Word32 := 0xEC250001#32

/-- A read of an aligned offset: no side effect (20_memory.md R34 to R40, R44). -/
def readReg (off : Offset) (s : State) : Word32 :=
  match decodeOffset off with
  | .id => idWord
  | .ctrl => s.ctrlWord
  | .status => s.statusWord
  | .cmd => s.cmd
  | .inf => s.inf.zeroExtend 32
  | .word r j => getSlice (s.readW r) j
  | .reserved => 0#32

/-- A write that the busy core drops (20_memory.md R41). -/
def State.dropWrite (s : State) : State := { s with busyErr := true }

/-- A write to CTRL (20_memory.md R36): bit 1 is a soft reset (70_reset_and_hazards.md R101) and then bit 0 is
discarded; else bit 0 is IRQ_EN. -/
def State.writeCtrl (s : State) (v : Word32) : State :=
  if v.getLsbD 1 then s.resetCore else { s with irqEn := v.getLsbD 0 }

/-- A write to CMD (20_memory.md R38, R41). -/
def State.writeCmd (s : State) (v : Word32) : State :=
  if s.busy then s.dropWrite else s.issue v

/-- A write to INF: bits [31:8] are ignored (20_memory.md R39, R41). -/
def State.writeInfReg (s : State) (v : Word32) : State :=
  if s.busy then s.dropWrite else { s with inf := v.extractLsb' 0 8 }

/-- A write to word `j` of W[r] (20_memory.md R40, R41). -/
def State.writeWord (s : State) (r : RegIndex) (j : Index3) (v : Word32) : State :=
  if s.busy then s.dropWrite else s.writeW r (setSlice (s.readW r) j v)

/-- A write to an aligned offset (20_memory.md R34 to R41). ID and reserved offsets ignore it. -/
def writeReg (off : Offset) (v : Word32) (s : State) : State :=
  match decodeOffset off with
  | .id => s
  | .ctrl => s.writeCtrl v
  | .status => s.writeStatus v
  | .cmd => s.writeCmd v
  | .inf => s.writeInfReg v
  | .word r j => s.writeWord r j v
  | .reserved => s

/-! ### Transactions -/

/-- `MemRead(off, 4)` (20_memory.md R32): ERR and data 0 for a misaligned offset. -/
def memRead (off : Offset) (s : State) : Word32 × BusResp :=
  if aligned off then (readReg off s, .ok) else (0#32, .err)

/-- `MemWrite(off, 4, v)` (20_memory.md R32): ERR and no change for a misaligned offset. -/
def memWrite (off : Offset) (v : Word32) (s : State) : State × BusResp :=
  if aligned off then (writeReg off v s, .ok) else (s, .err)

/-- One atomic step of the host (00_scope.md R9): the transaction's effect, and the answer of the port. -/
def hostTransaction (t : Transaction) (s : State) : State :=
  match t with
  | .read off => { s with response := some (.readDone (memRead off s).1 (memRead off s).2) }
  | .write off v => { (memWrite off v s).1 with response := some (.writeDone (memWrite off v s).2) }

end Sys2Proof.Machine
end

