-- ==== Sys2Proof/Machine/Arith.lean ====
section
/-! DEFINITION. The integer arithmetic of the rules (00_scope.md R12): exact on unbounded integers, and reduced only
where `mod` says so. Written for any modulus; `inv_m` by the extended Euclidean algorithm, since its result is unique
and the method is not observable (93_implementation_defined.md I4, log 6). -/

namespace Sys2Proof.Machine

/-- `x mod m`: the r with 0 ≤ r < m and m dividing x − r, for a negative x too (00_scope.md R12). -/
def imod (x : Int) (m : Nat) : Nat := (x % (m : Int)).toNat

/-- The extended Euclidean algorithm on the remainders `r0 > r1 > 0` with the cofactors `t0`, `t1` of the number being
inverted: the cofactor of the last non-zero remainder. The first argument bounds the number of divisions. -/
def euclid : Nat → Nat → Nat → Int → Int → Int
  | 0, _, _, _, t1 => t1
  | fuel + 1, r0, r1, t0, t1 =>
    if r0 % r1 = 0 then t1
    else euclid fuel r1 (r0 % r1) t1 (t0 - (r0 / r1 : Nat) * t1)

/-- `inv_m(x)` for m prime and x mod m ≠ 0: the y in [1, m−1] with x·y mod m = 1 (00_scope.md R12). The 512 divisions
suffice for every 256-bit modulus. -/
def invMod (m x : Nat) : Nat := imod (euclid 512 m (x % m) 0 1) m

/-- MODADD's value (40_field_arith.md R69). -/
def addMod (m x y : Nat) : Nat := (x + y) % m

/-- MODSUB's value: the mathematical mod of the exact difference (40_field_arith.md R70). -/
def subMod (m x y : Nat) : Nat := imod ((x : Int) - (y : Int)) m

/-- MODMUL's value: the exact product, reduced (40_field_arith.md R71). -/
def mulMod (m x y : Nat) : Nat := x * y % m

/-- MONTMUL's value: x·y·R⁻¹ mod m with R = 2^256 (40_field_arith.md R72). -/
def montMul (m x y : Nat) : Nat := x * y * invMod m (2 ^ 256 % m) % m

/-- `bitlen(k)`: the least l with k < 2^l (00_scope.md R12). -/
def bitlen (k : Nat) : Nat := if k = 0 then 0 else Nat.log2 k + 1

end Sys2Proof.Machine
end

