-- ==== Sys2Proof/Machine/Group.lean ====
section
/-! DEFINITION. The pure functions on points: `padd` (41_point_arith.md R78), `pdbl` (R79) and `pmul`
(42_scalar_mult.md R84), for any curve record, on points whose coordinates are reduced. -/

namespace Sys2Proof.Machine

/-- The third point of a line of slope `l` through (x1, y1) and a point with x coordinate x2 (R78, R79):
x3 = (l·l − x1 − x2) mod p and y3 = (l·(x1 − x3) − y1) mod p. -/
def chord (C : Curve) (l x1 y1 x2 : Nat) : Point :=
  let x3 := imod ((l : Int) * l - x1 - x2) C.p
  let y3 := imod ((l : Int) * ((x1 : Int) - x3) - y1) C.p
  .finite x3 y3

/-- The slope of the tangent: (3·x² + a) / (2·y) mod p (R79). -/
def tangentSlope (C : Curve) (x y : Nat) : Nat :=
  (3 * x * x + C.a) % C.p * invMod C.p (2 * y % C.p) % C.p

/-- The slope of the line through two points: (y2 − y1) / (x2 − x1) mod p (R78). -/
def chordSlope (C : Curve) (x1 y1 x2 y2 : Nat) : Nat :=
  imod ((y2 : Int) - y1) C.p * invMod C.p (imod ((x2 : Int) - x1) C.p) % C.p

/-- Point doubling (R79). -/
def pdbl (C : Curve) : Point → Point
  | .infinity => .infinity
  | .finite x y => if y = 0 then .infinity else chord C (tangentSlope C x y) x y x

/-- Point addition (R78). -/
def padd (C : Curve) : Point → Point → Point
  | .infinity, Q => Q
  | P, .infinity => P
  | .finite x1 y1, .finite x2 y2 =>
    if x1 = x2 ∧ y1 = y2 then pdbl C (.finite x1 y1)
    else if x1 = x2 then .infinity
    else chord C (chordSlope C x1 y1 x2 y2) x1 y1 x2

/-- The answer of `pmul` (42_scalar_mult.md R84). -/
inductive PmulResult where
  | ok (r : Point)
  | infinity
  | invalid
  deriving DecidableEq, Repr

/-- The answer once every bit is consumed (R84): "Infinity-as-failure" for an empty accumulator. -/
def pmulEnd : Point → PmulResult
  | .infinity => .infinity
  | acc => .ok acc

/-- The accumulation of iteration i (R84): nothing when the bit is 0; the running point itself when the accumulator is
Infinity (the identity shortcut); else `padd`. -/
def pmulAcc (C : Curve) (bit : Bool) (acc Q0 : Point) : Point :=
  if bit then (if acc = .infinity then Q0 else padd C acc Q0) else acc

/-- The iterations i, i+1, …, l−1 of `pmul` (R84), the first argument counting the ones that are left. The running point
is doubled only while bits remain to be consumed. -/
def pmulLoop (C : Curve) (k l : Nat) : Nat → Nat → Point → Point → PmulResult
  | 0, _, acc, _ => pmulEnd acc
  | left + 1, i, acc, Q0 =>
    let acc' := pmulAcc C (k.testBit i) acc Q0
    if i + 1 < l then
      match pdbl C Q0 with
      | .infinity => .invalid
      | .finite x y => pmulLoop C k l left (i + 1) acc' (.finite x y)
    else pmulLoop C k l left (i + 1) acc' Q0

/-- Scalar multiplication (R84): over the bits 0 .. bitlen(k) − 1 of k, low to high. -/
def pmul (C : Curve) (k : Nat) (P : Point) : PmulResult :=
  pmulLoop C k (bitlen k) (bitlen k) 0 .infinity P

end Sys2Proof.Machine
end

