-- ==== Sys2Proof/Machine/Operands.lean ====
section
/-! DEFINITION. The operand forms of the commands (30_encoding.md R56): a data register, a modulus, a constant of the
ROM (10_state.md R26) and a point register (R18; 41_point_arith.md R76, R77). -/

namespace Sys2Proof.Machine

/-- The index in bits [2:0] of a field (30_encoding.md R56; log 13). -/
def lowIndex (f : RegIndex) : Index3 := f.extractLsb' 0 3

/-- `M(MSEL)`: the modulus of a field command, p or n of CURVE (30_encoding.md R56, 00_scope.md R6). -/
def modulus (m : Modulus) (C : Curve := Config.curve) : Nat :=
  match m with
  | .p => C.p
  | .n => C.n

/-- A data register as the unsigned integer it holds (40_field_arith.md R67). -/
def State.val (s : State) (r : RegIndex) : Nat := (s.readW r).toNat

/-- `CONST[i]`, the constant ROM (10_state.md R26): P, N, A, B, GX, GY, R2P, R2N. -/
def constROM (C : Curve) (i : Index3) : Nat :=
  match i.toNat with
  | 0 => C.p
  | 1 => C.n
  | 2 => C.a
  | 3 => C.b
  | 4 => C.gx
  | 5 => C.gy
  | 6 => 2 ^ 512 % C.p
  | _ => 2 ^ 512 % C.n

/-- The data register that is the x coordinate of point register i: W[2i] (10_state.md R18). -/
def xReg (i : Index3) : RegIndex := i ++ 0#1

/-- The data register that is the y coordinate of point register i: W[2i+1] (10_state.md R18). -/
def yReg (i : Index3) : RegIndex := i ++ 1#1

/-- A read of `PT(i)`: Infinity when INF[i] = 1, else the coordinates reduced modulo p (41_point_arith.md R76). -/
def State.readPT (s : State) (i : Index3) (C : Curve := Config.curve) : Point :=
  if s.readInf i then .infinity
  else .finite (s.val (xReg i) % C.p) (s.val (yReg i) % C.p)

/-- `PT(i) <- r` (41_point_arith.md R77). -/
def State.writePT (s : State) (i : Index3) (r : Point) : State :=
  match r with
  | .infinity => ((s.writeW (xReg i) 0#256).writeW (yReg i) 0#256).writeInf i true
  | .finite x y => ((s.writeW (xReg i) (BitVec.ofNat 256 x)).writeW (yReg i) (BitVec.ofNat 256 y)).writeInf i false

end Sys2Proof.Machine
end

