-- ==== Sys2Proof/Machine/Field.lean ====
section
/-! DEFINITION. The field commands (40_field_arith.md R67 to R74). Each reads its sources in the state it is given,
computes the exact integer result, and commits one register write together with the completion (30_encoding.md R65). -/

namespace Sys2Proof.Machine

/-- `W[d] <- v; finish(OK)`. -/
def commitW (s : State) (d : RegIndex) (v : Nat) : Host.Outcome State Fault Refusal :=
  .next ((s.writeW d (BitVec.ofNat 256 v)).finish .ok)

/-- MODADD (R69). -/
def execModadd (m : Modulus) (d a b : RegIndex) (s : State) (C : Curve := Config.curve) :
    Host.Outcome State Fault Refusal :=
  commitW s d (addMod (modulus m C) (s.val a) (s.val b))

/-- MODSUB (R70): W[A] − W[B], in that order. -/
def execModsub (m : Modulus) (d a b : RegIndex) (s : State) (C : Curve := Config.curve) :
    Host.Outcome State Fault Refusal :=
  commitW s d (subMod (modulus m C) (s.val a) (s.val b))

/-- MODMUL (R71). -/
def execModmul (m : Modulus) (d a b : RegIndex) (s : State) (C : Curve := Config.curve) :
    Host.Outcome State Fault Refusal :=
  commitW s d (mulMod (modulus m C) (s.val a) (s.val b))

/-- MONTMUL (R72). -/
def execMontmul (m : Modulus) (d a b : RegIndex) (s : State) (C : Curve := Config.curve) :
    Host.Outcome State Fault Refusal :=
  commitW s d (montMul (modulus m C) (s.val a) (s.val b))

/-- MODRED (R73). -/
def execModred (m : Modulus) (d a : RegIndex) (s : State) (C : Curve := Config.curve) :
    Host.Outcome State Fault Refusal :=
  commitW s d (s.val a % modulus m C)

/-- MODINV (R74): NO_INVERSE and no write when the source is 0 mod m. -/
def execModinv (m : Modulus) (d a : RegIndex) (s : State) (C : Curve := Config.curve) :
    Host.Outcome State Fault Refusal :=
  let x := s.val a % modulus m C
  if x = 0 then .next (s.raiseCode .noInverse)
  else commitW s d (invMod (modulus m C) x)

end Sys2Proof.Machine
end

