-- ==== Sys2Proof/Machine/Constant.lean ====
section
/-! DEFINITION. The constant load LDC (40_field_arith.md R75). -/

namespace Sys2Proof.Machine

/-- LDC (R75): `W[D] <- CONST[A[2:0]]`. INF is not written. -/
def execLdc (d c : RegIndex) (s : State) (C : Curve := Config.curve) :
    Host.Outcome State Fault Refusal :=
  commitW s d (constROM C (lowIndex c))

end Sys2Proof.Machine
end

