-- ==== Sys2Proof/Machine/PointOps.lean ====
section
/-! DEFINITION. The point commands PADD (41_point_arith.md R81) and PDBL (R82). -/

namespace Sys2Proof.Machine

/-- The code of a point result: POINT_AT_INFINITY when it is Infinity, else OK (R81, R82). -/
def pointCode : Point → ResultCode
  | .infinity => .pointAtInfinity
  | .finite _ _ => .ok

/-- `PT(d) <- r`, then the completion with the code of `r` (R81, R82): Infinity is written and reported (C2). -/
def commitPT (s : State) (d : Index3) (r : Point) : Host.Outcome State Fault Refusal :=
  .next ((s.writePT d r).finish (pointCode r))

/-- PADD (R81). -/
def execPadd (d a b : RegIndex) (s : State) (C : Curve := Config.curve) :
    Host.Outcome State Fault Refusal :=
  commitPT s (lowIndex d) (padd C (s.readPT (lowIndex a) C) (s.readPT (lowIndex b) C))

/-- PDBL (R82). -/
def execPdbl (d a : RegIndex) (s : State) (C : Curve := Config.curve) :
    Host.Outcome State Fault Refusal :=
  commitPT s (lowIndex d) (pdbl C (s.readPT (lowIndex a) C))

end Sys2Proof.Machine
end

