-- ==== Sys2Proof/Machine/Scalar.lean ====
section
/-! DEFINITION. The scalar multiplication PMUL (42_scalar_mult.md R85). -/

namespace Sys2Proof.Machine

/-- The end of PMUL for each answer of `pmul` (R85): only INVALID writes nothing. -/
def finishPmul (s : State) (d : Index3) : PmulResult → Host.Outcome State Fault Refusal
  | .ok r => .next ((s.writePT d r).finish .ok)
  | .infinity => .next ((s.writePT d .infinity).finish .pointAtInfinity)
  | .invalid => .next (s.raiseCode .invalidScalarResult)

/-- PMUL (R85): the scalar W[k] is the integer it is, not reduced mod n. -/
def execPmul (d k b : RegIndex) (s : State) (C : Curve := Config.curve) :
    Host.Outcome State Fault Refusal :=
  finishPmul s (lowIndex d) (pmul C (s.val k) (s.readPT (lowIndex b) C))

end Sys2Proof.Machine
end

