-- ==== Sys2Proof/Machine/Dispatch.lean ====
section
/-! DEFINITION. The meaning of each command (30_encoding.md R57, semantics column; R64): what the completion step does
to the state in which a legal word is pending. -/

namespace Sys2Proof.Machine

def exec (i : Instr) (s : State) : Host.Outcome State Fault Refusal :=
  match i with
  | .modadd m d a b => Sys2Proof.Machine.execModadd m d a b s
  | .modsub m d a b => Sys2Proof.Machine.execModsub m d a b s
  | .modmul m d a b => Sys2Proof.Machine.execModmul m d a b s
  | .montmul m d a b => Sys2Proof.Machine.execMontmul m d a b s
  | .modred m d a => Sys2Proof.Machine.execModred m d a s
  | .modinv m d a => Sys2Proof.Machine.execModinv m d a s
  | .ldc d c => Sys2Proof.Machine.execLdc d c s
  | .padd d a b => Sys2Proof.Machine.execPadd d a b s
  | .pdbl d a => Sys2Proof.Machine.execPdbl d a s
  | .pmul d k b => Sys2Proof.Machine.execPmul d k b s

end Sys2Proof.Machine
end

