-- ==== Sys2Proof/Machine/Engine.lean ====
section
/-! DEFINITION. The engine's one step, the completion of the pending command (00_scope.md R9, 30_encoding.md R64), and
the order in which the agents move (log 1).
`run` is the meaning of the commands: `exec` unless another is given (Machine/OnCurve.lean gives one for any curve). -/

namespace Sys2Proof.Machine

/-- The completion of the word `c` (30_encoding.md R64): ILLEGAL_CMD and no write for an illegal word, else the meaning
of the decoded command. -/
def completeWord (c : Word32) (s : State)
    (run : Instr → State → Host.Outcome State Fault Refusal := exec) :
    Host.Outcome State Fault Refusal :=
  match decode c with
  | .command i => run i s
  | .illegal _ => .next (s.raiseCode .illegalCmd)

/-- The engine's turn: enabled only while a command is pending (00_scope.md R9); otherwise nothing moves (log 10). -/
def engineTurn (s : State)
    (run : Instr → State → Host.Outcome State Fault Refusal := exec) :
    Host.Outcome State Fault Refusal :=
  match s.pending with
  | some c => completeWord c s run
  | none => .next s

/-- One move of an agent. Hardware reset is one atomic step (70_reset_and_hazards.md R100). -/
def takeMove (m : Move) (s : State)
    (run : Instr → State → Host.Outcome State Fault Refusal := exec) :
    Host.Outcome State Fault Refusal :=
  match m with
  | .host t => .next (hostTransaction t s)
  | .engine => engineTurn s run
  | .hardReset => .next s.resetCore

/-- The next move of the agenda; when none is left, the host is silent and the engine completes what is pending, so a
command does complete eventually (00_scope.md R11, log 1). -/
def nextMove (s : State)
    (run : Instr → State → Host.Outcome State Fault Refusal := exec) :
    Host.Outcome State Fault Refusal :=
  match s.agenda with
  | m :: rest => takeMove m { s with agenda := rest } run
  | [] => engineTurn s run

end Sys2Proof.Machine
end

