-- ==== Sys2Proof/Machine/Step.lean ====
section
/-! DEFINITION. One step of the machine: the next move of its agents (00_scope.md R9). -/

namespace Sys2Proof.Machine

/-- One atomic step of the host, the engine or the reset input. -/
def step (s : State) : Host.Outcome State Fault Refusal := nextMove s

/-- `s` with the command word of `w` issued (30_encoding.md R63) and the engine to move next, so that the next step
completes exactly that command. The core fetches nothing (10_state.md R21): this stands for the host's write to CMD
(log 2). -/
def State.withFetchWord (s : State) (nbits w : Nat) : State :=
  { s.issue (tableWord nbits w) with agenda := .engine :: s.agenda }

end Sys2Proof.Machine
end

