-- ==== Sys2Proof/Machine/HostOps.lean ====
section
/-! DEFINITION. What the host does with the core: the host operations of 30_encoding.md R61 as lists of bus
transactions, and the pseudo-instructions of R62 with their expansions. The core sees only the transactions. -/

namespace Sys2Proof.Machine

/-! ### Host operations (R61) -/

/-- The eight word indices in the order of 20_memory.md R40: most significant word first. -/
def wordOrder : List Index3 := [0#3, 1#3, 2#3, 3#3, 4#3, 5#3, 6#3, 7#3]

/-- `WR wr, V`: eight writes (R61). -/
def wrTransactions (r : RegIndex) (v : Word256) : List Transaction :=
  wordOrder.map fun j => .write (wordOffset r j) (getSlice v j)

/-- `RD wr`: eight reads (R61). -/
def rdTransactions (r : RegIndex) : List Transaction :=
  wordOrder.map fun j => .read (wordOffset r j)

/-- `ISSUE c` with `polls` reads of STATUS after the write (R61); how many it takes is the core's latency (LAT). -/
def issueTransactions (c : Word32) (polls : Nat) : List Transaction :=
  .write offCMD c :: List.replicate polls (.read offSTATUS)

/-- Host transactions one after another, with no completion between them (20_memory.md R47). -/
def runTransactions (ts : List Transaction) (s : State) : State :=
  ts.foldl (fun s t => hostTransaction t s) s

/-- The words the eight reads of `RD wr` return, in order. -/
def rdWords (r : RegIndex) (s : State) : List Word32 :=
  wordOrder.map fun j => (memRead (wordOffset r j) s).1

/-- The eight words of `RD wr` as one 256-bit value, the first the most significant (20_memory.md R43). -/
def joinWords (ws : List Word32) : Word256 :=
  ws.foldl (fun acc x => (acc <<< 32) ||| x.zeroExtend 256) 0#256

/-- The word the second transaction of `SETINF` or `CLRINF` writes, from the word the first one read (R61). -/
def infWithFlag (readBack : Word32) (d : Index3) (b : Bool) : Word32 :=
  (setBit8 (readBack.extractLsb' 0 8) d b).zeroExtend 32

/-! ### Pseudo-instructions (R62) -/

/-- A line of a host program: one ISSUE of a command, `SETINF ptd` or `CLRINF ptd` (R61). -/
inductive HostAction where
  | issue (i : Instr)
  | setInf (d : Index3)
  | clrInf (d : Index3)
  deriving DecidableEq, Repr

/-- The pseudo-instructions of R62. -/
inductive Pseudo where
  | modsqr (m : Modulus) (d a : RegIndex)
  | moddbl (m : Modulus) (d a : RegIndex)
  | clr (d : RegIndex)
  | modneg (m : Modulus) (d a : RegIndex)
  | tomont (m : Modulus) (d a r : RegIndex)
  | frommont (m : Modulus) (d a o : RegIndex)
  | ldg (d : Index3)
  deriving DecidableEq, Repr

/-- MODNEG requires d ≠ a (R62). -/
def Pseudo.wellFormed : Pseudo → Bool
  | .modneg _ d a => d != a
  | _ => true

/-- The expansion of a pseudo-instruction (R62). -/
def Pseudo.expand : Pseudo → List HostAction
  | .modsqr m d a => [.issue (.modmul m d a a)]
  | .moddbl m d a => [.issue (.modadd m d a a)]
  | .clr d => [.issue (.modsub .p d d d)]
  | .modneg m d a => [.issue (.modsub m d a a), .issue (.modsub m d d a)]
  | .tomont m d a r => [.issue (.montmul m d a r)]
  | .frommont m d a o => [.issue (.montmul m d a o)]
  | .ldg d => [.issue (.ldc (xReg d) 4#4), .issue (.ldc (yReg d) 5#4), .clrInf d]

/-- The two transactions of `SETINF` and `CLRINF` (R61). -/
def performFlag (d : Index3) (b : Bool) (s : State) : State :=
  let s' := hostTransaction (.read offINF) s
  hostTransaction (.write offINF (infWithFlag (memRead offINF s).1 d b)) s'

/-- One line of a host program, on a core whose engine completes each command before the next transaction (R61: the
host waits for BUSY = 0; log 17). -/
def HostAction.perform (a : HostAction) (s : State) : Host.Outcome State Fault Refusal :=
  match a with
  | .issue i => engineTurn (hostTransaction (.write offCMD (encode i)) s)
  | .setInf d => .next (performFlag d true s)
  | .clrInf d => .next (performFlag d false s)

/-- The lines of a host program, one after another. -/
def performAll : List HostAction → State → Host.Outcome State Fault Refusal
  | [], s => .next s
  | a :: rest, s =>
    match a.perform s with
    | .next s' => performAll rest s'
    | .fault r => .fault r
    | .refused r => .refused r

end Sys2Proof.Machine
end

