-- ==== Sys2Proof/Machine/OnCurve.lean ====
section
/-! DEFINITION. The machine with the parameter CURVE given (00_scope.md R6, R8; 92_eei_decisions.md D2;
93_implementation_defined.md I3): the same meanings, engine and bus, on any curve record. `exec` and `step` are this
machine on the default record. A record without the properties of R7 is outside the spec. -/

namespace Sys2Proof.Machine

/-- The meaning of each command on the curve `C`. -/
def execOn (C : Curve) (i : Instr) (s : State) : Host.Outcome State Fault Refusal :=
  match i with
  | .modadd m d a b => execModadd m d a b s C
  | .modsub m d a b => execModsub m d a b s C
  | .modmul m d a b => execModmul m d a b s C
  | .montmul m d a b => execMontmul m d a b s C
  | .modred m d a => execModred m d a s C
  | .modinv m d a => execModinv m d a s C
  | .ldc d c => execLdc d c s C
  | .padd d a b => execPadd d a b s C
  | .pdbl d a => execPdbl d a s C
  | .pmul d k b => execPmul d k b s C

/-- One step of the machine on the curve `C`. Reset and the bus do not read the curve. -/
def stepOn (C : Curve) (s : State) : Host.Outcome State Fault Refusal := nextMove s (execOn C)

end Sys2Proof.Machine
end

