-- ==== Sys2Proof/Safety.lean ====
section
/-! DEFINITION. The terms claims use: the invariant of reachable states, what a completed command looks like, and the
frames (what a step leaves unchanged). -/

namespace Sys2Proof.Machine

/-- The invariant of reachable states: BUSY exactly while a command is pending (10_state.md R22), DONE = 1 implies
BUSY = 0 (60_exceptions.md R96), RESULT at most 4 (93_implementation_defined.md V3), and CMD holds the word of the
pending command (10_state.md R24, R25). -/
structure State.Inv (s : State) : Prop where
  busy_iff     : s.busy = s.pending.isSome
  done_idle    : s.done = true → s.busy = false
  result_le    : s.result.toNat ≤ 4
  cmd_pending  : ∀ c, s.pending = some c → s.cmd = c

/-- Every field of 10_state.md R16 has its reset value (R29). -/
structure State.AtReset (s : State) : Prop where
  w        : ∀ r, s.readW r = 0#256
  inf      : s.inf = 0x00#8
  irqEn    : s.irqEn = false
  busy     : s.busy = false
  done     : s.done = false
  busyErr  : s.busyErr = false
  result   : s.result = 0#4
  cmd      : s.cmd = 0x00000000#32
  pending  : s.pending = none

/-- `t` is `s` after a completion with code `code`, whatever it wrote to W and INF (30_encoding.md R64): no command
changes IRQ_EN, BUSY_ERR or CMD, and the environment's own fields stay. -/
structure Completed (s t : State) (code : ResultCode) : Prop where
  pending  : t.pending = none
  busy     : t.busy = false
  done     : t.done = true
  result   : t.result = code.bits
  irqEn    : t.irqEn = s.irqEn
  busyErr  : t.busyErr = s.busyErr
  cmd      : t.cmd = s.cmd
  agenda   : t.agenda = s.agenda
  response : t.response = s.response

/-- `s` and `t` agree on every data register and every Infinity flag. -/
def SameRegs (s t : State) : Prop := (∀ r, t.readW r = s.readW r) ∧ t.inf = s.inf

/-- The frame of a command that writes W[d] only (40_field_arith.md R67). -/
def OnlyW (s t : State) (d : RegIndex) : Prop := (∀ r, r ≠ d → t.readW r = s.readW r) ∧ t.inf = s.inf

/-- The frame of a command that writes point register d only (41_point_arith.md R77). -/
def OnlyPT (s t : State) (d : Index3) : Prop :=
  (∀ r, r ≠ xReg d → r ≠ yReg d → t.readW r = s.readW r) ∧ (∀ i, i ≠ d → t.readInf i = s.readInf i)

/-- Point register d of `t` holds `r` as 41_point_arith.md R77 writes it: both coordinates and the flag. -/
def HoldsPoint (t : State) (d : Index3) : Point → Prop
  | .infinity => t.readW (xReg d) = 0#256 ∧ t.readW (yReg d) = 0#256 ∧ t.readInf d = true
  | .finite x y => (t.readW (xReg d)).toNat = x ∧ (t.readW (yReg d)).toNat = y ∧ t.readInf d = false

/-- Everything of 10_state.md R16 is the same in `s` and `t`. -/
def SameCore (s t : State) : Prop :=
  SameRegs s t ∧ t.irqEn = s.irqEn ∧ t.busy = s.busy ∧ t.done = s.done ∧ t.busyErr = s.busyErr ∧
    t.result = s.result ∧ t.cmd = s.cmd ∧ t.pending = s.pending

/-- A point whose coordinates are in [0, p−1] (00_scope.md R15). -/
def ReducedPoint (C : Curve) : Point → Prop
  | .infinity => True
  | .finite x y => x < C.p ∧ y < C.p

/-- The finite result of a line of slope `l` through (x1, y1) and a point with x coordinate x2 (41_point_arith.md R78,
R79): x3 = (l² − x1 − x2) mod p and y3 = (l·(x1 − x3) − y1) mod p are held by point register d, and the code is OK. -/
def EndsAtChord (s t : State) (d : Index3) (l x1 y1 x2 : Nat) (C : Curve := Config.curve) : Prop :=
  ∃ x3 y3 : Nat, (x3 : Int) = ((l : Int) * l - x1 - x2) % (C.p : Int) ∧
    (y3 : Int) = ((l : Int) * ((x1 : Int) - x3) - y1) % (C.p : Int) ∧
    HoldsPoint t d (.finite x3 y3) ∧ Completed s t .ok

/-- The transaction is a soft reset (70_reset_and_hazards.md R101): an aligned write to CTRL with bit 1 set. -/
def Transaction.isSoftReset : Transaction → Bool
  | .read _ => false
  | .write off v => off == offCTRL && v.getLsbD 1

/-- The move resets the core (R100, R101). -/
def Move.isReset : Move → Bool
  | .host t => t.isSoftReset
  | .engine => false
  | .hardReset => true

/-- A run is safe when no step of it stops: here, every run of any length. -/
def SafeRun (s : State) (k : Nat) : Prop := ∃ t, Host.Core.run Sys2Proof.core k s = .next t

end Sys2Proof.Machine
end

