-- ==== Sys2Proof/Certificates/Slice0/Obligations.lean ====
section
/-! DEFINITION. The statements for the provers, one per claim, from the numbered rules of spec/. -/

open Sys2Proof Sys2Proof.Machine

/-! ### Configuration -/

/-- 00_scope.md R7: the properties of CURVE that every rule relies on hold of the machine's curve. -/
def Obligations.CurveHasTheRequiredProperties : Prop :=
  Config.curve.Ok

/-- 00_scope.md R6: p = 2^256 − 2^224 + 2^192 + 2^96 − 1, a = p − 3, and G satisfies the curve equation (the digits are
the spec's, marked there as general knowledge: log 5). -/
def Obligations.CurveConstantsAreConsistent : Prop :=
  Config.curve.p + 2 ^ 224 + 1 = 2 ^ 256 + 2 ^ 192 + 2 ^ 96 ∧ Config.curve.a + 3 = Config.curve.p ∧
    Config.curve.gy ^ 2 % Config.curve.p =
      (Config.curve.gx ^ 3 + Config.curve.a * Config.curve.gx + Config.curve.b) % Config.curve.p

/-- 00_scope.md R6, R8, 92_eei_decisions.md D2: the machine is the machine on the record CURVE at the record's default,
for every command and every step. -/
def Obligations.DefaultCurveGivesTheMachine : Prop :=
  (∀ (i : Instr) (s : State), execOn Config.curve i s = exec i s) ∧ (∀ s : State, stepOn Config.curve s = step s)

/-- 00_scope.md R6, R7 with 40_field_arith.md R69 to R75 and 10_state.md R26: the seven field commands on every curve
record that has the properties of R7. -/
def Obligations.FieldCommandsOnEveryCurve : Prop :=
  ∀ (C : Curve), C.Ok → ∀ (m : Modulus) (d a b : RegIndex) (s : State),
    modulus .p C = C.p ∧ modulus .n C = C.n ∧
    (∃ t, execOn C (.modadd m d a b) s = .next t ∧
      (t.readW d).toNat = ((s.readW a).toNat + (s.readW b).toNat) % modulus m C ∧ OnlyW s t d ∧ Completed s t .ok) ∧
    (∃ t, execOn C (.modsub m d a b) s = .next t ∧
      ((t.readW d).toNat : Int) = (((s.readW a).toNat : Int) - (s.readW b).toNat) % (modulus m C : Int) ∧
      OnlyW s t d ∧ Completed s t .ok) ∧
    (∃ t, execOn C (.modmul m d a b) s = .next t ∧
      (t.readW d).toNat = (s.readW a).toNat * (s.readW b).toNat % modulus m C ∧ OnlyW s t d ∧ Completed s t .ok) ∧
    (∃ t, execOn C (.montmul m d a b) s = .next t ∧ (t.readW d).toNat < modulus m C ∧
      (t.readW d).toNat * 2 ^ 256 % modulus m C = (s.readW a).toNat * (s.readW b).toNat % modulus m C ∧
      OnlyW s t d ∧ Completed s t .ok) ∧
    (∃ t, execOn C (.modred m d a) s = .next t ∧
      (t.readW d).toNat = (s.readW a).toNat % modulus m C ∧ OnlyW s t d ∧ Completed s t .ok) ∧
    ((s.readW a).toNat % modulus m C = 0 →
      ∃ t, execOn C (.modinv m d a) s = .next t ∧ SameRegs s t ∧ Completed s t .noInverse) ∧
    ((s.readW a).toNat % modulus m C ≠ 0 →
      ∃ t, execOn C (.modinv m d a) s = .next t ∧
        1 ≤ (t.readW d).toNat ∧ (t.readW d).toNat ≤ modulus m C - 1 ∧
        (s.readW a).toNat % modulus m C * (t.readW d).toNat % modulus m C = 1 ∧ OnlyW s t d ∧ Completed s t .ok) ∧
    (∃ t, execOn C (.ldc d a) s = .next t ∧
      some (t.readW d).toNat =
        [C.p, C.n, C.a, C.b, C.gx, C.gy, 2 ^ 512 % C.p, 2 ^ 512 % C.n][a.toNat % 8]? ∧
      OnlyW s t d ∧ Completed s t .ok)

/-- 00_scope.md R6, R7 with 41_point_arith.md R76, R77, R81, R82 and 42_scalar_mult.md R85: the point commands on every
curve record that has the properties of R7, by the functions of R78, R79 and R84. -/
def Obligations.PointCommandsOnEveryCurve : Prop :=
  ∀ (C : Curve), C.Ok → ∀ (d a b : RegIndex) (s : State),
    (∃ t, execOn C (.padd d a b) s = .next t ∧
      let r := padd C (s.readPT (lowIndex a) C) (s.readPT (lowIndex b) C)
      HoldsPoint t (lowIndex d) r ∧ OnlyPT s t (lowIndex d) ∧
        Completed s t (if r = .infinity then .pointAtInfinity else .ok)) ∧
    (∃ t, execOn C (.pdbl d a) s = .next t ∧
      let r := pdbl C (s.readPT (lowIndex a) C)
      HoldsPoint t (lowIndex d) r ∧ OnlyPT s t (lowIndex d) ∧
        Completed s t (if r = .infinity then .pointAtInfinity else .ok)) ∧
    (∃ t, execOn C (.pmul d a b) s = .next t ∧
      match pmul C (s.readW a).toNat (s.readPT (lowIndex b) C) with
      | .ok r => ReducedPoint C r ∧ HoldsPoint t (lowIndex d) r ∧ OnlyPT s t (lowIndex d) ∧ Completed s t .ok
      | .infinity => HoldsPoint t (lowIndex d) .infinity ∧ OnlyPT s t (lowIndex d) ∧ Completed s t .pointAtInfinity
      | .invalid => SameRegs s t ∧ Completed s t .invalidScalarResult)

/-! ### Encoding (30_encoding.md R53 to R59) -/

/-- R54, R55, R58: a command decodes from its own word exactly when its operands are ones its format admits. -/
def Obligations.DecodeOfEncodeGivesBack : Prop :=
  ∀ i : Instr, decode (encode i) = .command i ↔ WellFormed i

/-- R54, R55, R58: no bit of a legal word is dropped: the decoded command is well formed and encodes to the word. -/
def Obligations.EncodeOfDecodeGivesBack : Prop :=
  ∀ (c : Word32) (i : Instr), decode c = .command i → WellFormed i ∧ encode i = c

/-- R58: the decoder answers, for every word, what the match and mask of R57 answer, and no word fits two rows. -/
def Obligations.DecoderFollowsMatchAndMask : Prop :=
  (∀ (c : Word32) (i : Instr), decode c = .command i ↔ tableDecode c = some i) ∧
  (∀ c : Word32, opcodeTable.Pairwise fun r q => ¬ (r.fits c = true ∧ q.fits c = true))

/-- R59: exactly which words are illegal; an illegal word issues like any other and completes with ILLEGAL_CMD and no
register write; the all-zero word is illegal. -/
def Obligations.IllegalWordsAreExactlyR59 : Prop :=
  (∀ c : Word32, (∃ why, decode c = .illegal why) ↔
    ((fieldOPC c).toNat = 0 ∨ 11 ≤ (fieldOPC c).toNat ∨ fieldZ c ≠ 0#14 ∨
      ((fieldOPC c).toNat ∈ [7, 8, 9, 10] ∧ fieldMSEL c ≠ 0#1) ∨
      ((fieldOPC c).toNat ∈ [5, 6, 7, 9] ∧ fieldB c ≠ 0#4) ∨
      ((fieldOPC c).toNat ∈ [8, 9, 10] ∧ (fieldD c).getLsbD 3 = true) ∨
      ((fieldOPC c).toNat ∈ [7, 8, 9] ∧ (fieldA c).getLsbD 3 = true) ∨
      ((fieldOPC c).toNat ∈ [8, 10] ∧ (fieldB c).getLsbD 3 = true))) ∧
  (∀ (c : Word32) (why : IllegalReason), decode c = .illegal why →
    (∀ s : State, s.busy = false → memWrite offCMD c s = (s.issue c, .ok)) ∧
    (∀ s : State, s.pending = some c →
      ∃ t, engineTurn s = .next t ∧ Completed s t .illegalCmd ∧ SameRegs s t)) ∧
  (∃ why, decode 0x00000000#32 = .illegal why)

/-- 95_test_vectors.md section 2.1: words written out from the encoding of R54, R55 and R57, one for each format and more,
decode to the commands they stand for; and what the two values of MSEL select: M(0) = p and M(1) = n (R56). -/
def Obligations.SampleWordsDecode : Prop :=
  modulusOf 0#1 = .p ∧ modulusOf 1#1 = .n ∧ modulus .p = Config.curve.p ∧ modulus .n = Config.curve.n ∧
  decode 0x09890000#32 = .command (.modadd .p 3 1 2) ∧ decode 0x11890000#32 = .command (.modsub .p 3 1 2) ∧
  decode 0x1A9A4000#32 = .command (.modmul .n 5 3 4) ∧ decode 0x21890000#32 = .command (.montmul .p 3 1 2) ∧
  decode 0x29884000#32 = .command (.modred .n 3 1) ∧ decode 0x31880000#32 = .command (.modinv .p 3 1) ∧
  decode 0x3A200000#32 = .command (.ldc 4 4) ∧ decode 0x41008000#32 = .command (.padd 2 0 1) ∧
  decode 0x48800000#32 = .command (.pdbl 1 0) ∧ decode 0x50C00000#32 = .command (.pmul 1 8 0)

/-! ### Steps, issue and completion -/

/-- 00_scope.md R9, 30_encoding.md R64: when the pending word decodes to a command, the engine's step is `exec` of that
command, whether the engine's turn stands in the agenda or the agenda is empty (log 1). -/
def Obligations.StepRunsThePendingCommand : Prop :=
  ∀ (s : State) (c : Word32) (i : Instr), s.pending = some c → decode c = .command i →
    (s.agenda = [] → step s = exec i s) ∧
    (∀ rest, s.agenda = .engine :: rest → step s = exec i { s with agenda := rest })

/-- Every well-formed command whose word is placed by `withFetchWord` (log 2) is what the next step runs, from every
state, with the word issued as 30_encoding.md R63 says. -/
def Obligations.IssuedWordRuns : Prop :=
  ∀ (s : State) (i : Instr), WellFormed i → step (s.withFetchWord 32 (encode i).toNat) = exec i (s.issue (encode i))

/-- 00_scope.md R9: a host transaction and a hardware reset are one step each, taken from the head of the agenda. -/
def Obligations.StepTakesTheHeadMove : Prop :=
  ∀ (s : State) (rest : List Move),
    (∀ t, s.agenda = .host t :: rest → step s = .next (hostTransaction t { s with agenda := rest })) ∧
    (s.agenda = .hardReset :: rest → step s = .next ({ s with agenda := rest } : State).resetCore) ∧
    (s.agenda = .engine :: rest → s.pending = none → step s = .next { s with agenda := rest })

/-- 30_encoding.md R63: issue. -/
def Obligations.IssueSetsTheCommandInFlight : Prop :=
  ∀ (s : State) (c : Word32), s.busy = false →
    ∃ t, memWrite offCMD c s = (t, .ok) ∧ t.cmd = c ∧ t.pending = some c ∧ t.busy = true ∧ t.done = false ∧
      t.result = s.result ∧ SameRegs s t ∧ t.irqEn = s.irqEn ∧ t.busyErr = s.busyErr

/-- 30_encoding.md R64, 60_exceptions.md R88: every command, on every state and operands, completes: it takes a next
state with BUSY 0, DONE 1, nothing pending and one of its own result codes of R89; it changes no control bit, not
BUSY_ERR and not CMD. -/
def Obligations.EveryCommandCompletes : Prop :=
  ∀ (i : Instr) (s : State), ∃ t code, exec i s = .next t ∧ Completed s t code ∧
    match i with
    | .modinv _ _ _ => code = .ok ∨ code = .noInverse
    | .padd _ _ _ => code = .ok ∨ code = .pointAtInfinity
    | .pdbl _ _ => code = .ok ∨ code = .pointAtInfinity
    | .pmul _ _ _ => code = .ok ∨ code = .pointAtInfinity ∨ code = .invalidScalarResult
    | _ => code = .ok

/-- 60_exceptions.md R95, 30_encoding.md R65: a completion that ends with INVALID_SCALAR_RESULT (2), NO_INVERSE (3) or
ILLEGAL_CMD (4) writes no register. -/
def Obligations.FailedCommandsWriteNothing : Prop :=
  ∀ (s t : State), s.pending ≠ none → engineTurn s = .next t →
    (t.result = 2#4 ∨ t.result = 3#4 ∨ t.result = 4#4) → SameRegs s t

/-- 60_exceptions.md R88: the core never traps: no step stops, from any state, and so no run does. -/
def Obligations.NoRunStops : Prop :=
  ∀ (s : State) (k : Nat), SafeRun s k

/-- 00_scope.md R11: a pending command completes after finitely many steps, however many host transactions come first,
unless one of them resets the core. That the engine moves when the agenda is empty is the model's choice (log 1). -/
def Obligations.PendingCommandCompletesEventually : Prop :=
  ∀ s : State, s.pending ≠ none → (∀ m ∈ s.agenda, m.isReset = false) →
    ∃ k t, k ≤ s.agenda.length + 1 ∧ Host.Core.run Sys2Proof.core k s = .next t ∧
      t.pending = none ∧ t.busy = false ∧ t.done = true

/-- 10_state.md R25, 30_encoding.md R66: while a command runs, no sequence of host transactions without a soft reset
changes the word in flight, a data register or a flag, so the command's result is what it would have been at issue. -/
def Obligations.HostCannotDisturbARunningCommand : Prop :=
  ∀ (s : State) (c : Word32) (ts : List Transaction), s.busy = true → s.pending = some c →
    (∀ t ∈ ts, t.isSoftReset = false) →
    (runTransactions ts s).pending = some c ∧ (runTransactions ts s).busy = true ∧ SameRegs s (runTransactions ts s) ∧
    ∃ u v, engineTurn s = .next u ∧ engineTurn (runTransactions ts s) = .next v ∧ SameRegs u v ∧ v.result = u.result

/-! ### Field commands (40_field_arith.md R67 to R75) -/

/-- R69: MODADD. -/
def Obligations.ModaddResult : Prop :=
  ∀ (m : Modulus) (d a b : RegIndex) (s : State),
    fieldOPC (encode (.modadd m d a b)) = 1#5 ∧
    ∃ t, exec (.modadd m d a b) s = .next t ∧
      (t.readW d).toNat = ((s.readW a).toNat + (s.readW b).toNat) % modulus m ∧ OnlyW s t d ∧ Completed s t .ok

/-- R70: MODSUB; the mathematical mod of the exact difference, in [0, m−1]. -/
def Obligations.ModsubResult : Prop :=
  ∀ (m : Modulus) (d a b : RegIndex) (s : State),
    fieldOPC (encode (.modsub m d a b)) = 2#5 ∧
    ∃ t, exec (.modsub m d a b) s = .next t ∧
      ((t.readW d).toNat : Int) = (((s.readW a).toNat : Int) - (s.readW b).toNat) % (modulus m : Int) ∧
      OnlyW s t d ∧ Completed s t .ok

/-- R71: MODMUL. -/
def Obligations.ModmulResult : Prop :=
  ∀ (m : Modulus) (d a b : RegIndex) (s : State),
    fieldOPC (encode (.modmul m d a b)) = 3#5 ∧
    ∃ t, exec (.modmul m d a b) s = .next t ∧
      (t.readW d).toNat = (s.readW a).toNat * (s.readW b).toNat % modulus m ∧ OnlyW s t d ∧ Completed s t .ok

/-- R72 (a definition the spec marks as general knowledge): MONTMUL. `r` is the inverse of 2^256 mod m of 00_scope.md R12; the result is the one reduced value whose
product with 2^256 is x·y mod m. -/
def Obligations.MontmulResult : Prop :=
  ∀ (m : Modulus) (d a b : RegIndex) (s : State),
    fieldOPC (encode (.montmul m d a b)) = 4#5 ∧
    ∃ t r, exec (.montmul m d a b) s = .next t ∧
      1 ≤ r ∧ r ≤ modulus m - 1 ∧ 2 ^ 256 % modulus m * r % modulus m = 1 ∧
      (t.readW d).toNat = (s.readW a).toNat * (s.readW b).toNat * r % modulus m ∧
      (t.readW d).toNat * 2 ^ 256 % modulus m = (s.readW a).toNat * (s.readW b).toNat % modulus m ∧
      OnlyW s t d ∧ Completed s t .ok

/-- R73: MODRED. -/
def Obligations.ModredResult : Prop :=
  ∀ (m : Modulus) (d a : RegIndex) (s : State),
    fieldOPC (encode (.modred m d a)) = 5#5 ∧
    ∃ t, exec (.modred m d a) s = .next t ∧
      (t.readW d).toNat = (s.readW a).toNat % modulus m ∧ OnlyW s t d ∧ Completed s t .ok

/-- R74: MODINV: NO_INVERSE and no write exactly when the source is 0 mod m; else the y in [1, m−1] with x·y mod m = 1. -/
def Obligations.ModinvResult : Prop :=
  ∀ (m : Modulus) (d a : RegIndex) (s : State),
    fieldOPC (encode (.modinv m d a)) = 6#5 ∧
    ((s.readW a).toNat % modulus m = 0 →
      ∃ t, exec (.modinv m d a) s = .next t ∧ SameRegs s t ∧ Completed s t .noInverse) ∧
    ((s.readW a).toNat % modulus m ≠ 0 →
      ∃ t, exec (.modinv m d a) s = .next t ∧
        1 ≤ (t.readW d).toNat ∧ (t.readW d).toNat ≤ modulus m - 1 ∧
        (s.readW a).toNat % modulus m * (t.readW d).toNat % modulus m = 1 ∧ OnlyW s t d ∧ Completed s t .ok)

/-- R74: NO_INVERSE occurs for exactly two 256-bit values, 0 and m. -/
def Obligations.NoInverseOnlyForZeroAndModulus : Prop :=
  ∀ (m : Modulus) (d a : RegIndex) (s : State),
    (∃ t, exec (.modinv m d a) s = .next t ∧ t.result = 3#4) ↔
      ((s.readW a).toNat = 0 ∨ (s.readW a).toNat = modulus m)

/-- R75, 10_state.md R26: LDC, with the eight constants as the spec writes them (digits the spec marks as general
knowledge: log 5). -/
def Obligations.LdcResult : Prop :=
  ∀ (d c : RegIndex) (s : State),
    fieldOPC (encode (.ldc d c)) = 7#5 ∧ ((c.getLsbD 3 = true) → ∃ why, decode (encode (.ldc d c)) = .illegal why) ∧
    ∃ t, exec (.ldc d c) s = .next t ∧
      some (t.readW d).toNat = [
        0xFFFFFFFF00000001000000000000000000000000FFFFFFFFFFFFFFFFFFFFFFFF,
        0xFFFFFFFF00000000FFFFFFFFFFFFFFFFBCE6FAADA7179E84F3B9CAC2FC632551,
        0xFFFFFFFF00000001000000000000000000000000FFFFFFFFFFFFFFFFFFFFFFFC,
        0x5AC635D8AA3A93E7B3EBBD55769886BC651D06B0CC53B0F63BCE3C3E27D2604B,
        0x6B17D1F2E12C4247F8BCE6E563A440F277037D812DEB33A0F4A13945D898C296,
        0x4FE342E2FE1A7F9B8EE7EB4A7C0F9E162BCE33576B315ECECBB6406837BF51F5,
        0x00000004FFFFFFFDFFFFFFFFFFFFFFFEFFFFFFFBFFFFFFFF0000000000000003,
        0x66E12D94F3D956202845B2392B6BEC594699799C49BD6FA683244C95BE79EEA2][c.toNat % 8]? ∧
      OnlyW s t d ∧ Completed s t .ok

/-! ### Point commands (41_point_arith.md R76 to R83) -/

/-- R76, 10_state.md R18: point register i is the view (W[2i], W[2i+1], INF[i]), its coordinates reduced modulo p, and
ignored when the flag is 1. -/
def Obligations.PointReadIsAReducedView : Prop :=
  ∀ (s : State) (i : Index3),
    (s.inf.getLsbD i.toNat = true → s.readPT i = .infinity) ∧
    (s.inf.getLsbD i.toNat = false → s.readPT i =
      .finite ((s.readW (BitVec.ofNat 4 (2 * i.toNat))).toNat % Config.curve.p)
        ((s.readW (BitVec.ofNat 4 (2 * i.toNat + 1))).toNat % Config.curve.p))

/-- R77: a point write writes both coordinates and the flag in every case and nothing else (no other data register or
flag, and no other field of the state), and is what a later read of the point register gives back. -/
def Obligations.PointWriteReadsBack : Prop :=
  ∀ (s : State) (d : Index3) (P : Point), ReducedPoint Config.curve P →
    HoldsPoint (s.writePT d P) d P ∧ OnlyPT s (s.writePT d P) d ∧
    s.writePT d P = { s with w := (s.writePT d P).w, inf := (s.writePT d P).inf } ∧ (s.writePT d P).readPT d = P ∧
    (∀ i, i ≠ d → (s.writePT d P).readPT i = s.readPT i)

/-- R79, R82: PDBL. The slope l is the number below p with 2·y·l = 3·x² + a mod p. -/
def Obligations.PdblResult : Prop :=
  ∀ (d a : RegIndex) (s : State), fieldOPC (encode (.pdbl d a)) = 9#5 ∧
    ∃ t, exec (.pdbl d a) s = .next t ∧ OnlyPT s t (lowIndex d) ∧
    (s.readPT (lowIndex a) = .infinity → HoldsPoint t (lowIndex d) .infinity ∧ Completed s t .pointAtInfinity) ∧
    (∀ x, s.readPT (lowIndex a) = .finite x 0 →
      HoldsPoint t (lowIndex d) .infinity ∧ Completed s t .pointAtInfinity) ∧
    (∀ x y, s.readPT (lowIndex a) = .finite x y → y ≠ 0 →
      ∃ l, l < Config.curve.p ∧ 2 * y * l % Config.curve.p = (3 * x * x + Config.curve.a) % Config.curve.p ∧
        EndsAtChord s t (lowIndex d) l x y x)

/-- R78, R81: PADD in its six cases. The slope l of the general case is the number below p with
(x2 − x1)·l = y2 − y1 mod p. -/
def Obligations.PaddResult : Prop :=
  ∀ (d a b : RegIndex) (s : State), fieldOPC (encode (.padd d a b)) = 8#5 ∧
    ∃ t, exec (.padd d a b) s = .next t ∧ OnlyPT s t (lowIndex d) ∧
    (s.readPT (lowIndex a) = .infinity → s.readPT (lowIndex b) = .infinity →
      HoldsPoint t (lowIndex d) .infinity ∧ Completed s t .pointAtInfinity) ∧
    (∀ x y, s.readPT (lowIndex a) = .infinity → s.readPT (lowIndex b) = .finite x y →
      HoldsPoint t (lowIndex d) (.finite x y) ∧ Completed s t .ok) ∧
    (∀ x y, s.readPT (lowIndex a) = .finite x y → s.readPT (lowIndex b) = .infinity →
      HoldsPoint t (lowIndex d) (.finite x y) ∧ Completed s t .ok) ∧
    (∀ x y, s.readPT (lowIndex a) = .finite x y → s.readPT (lowIndex b) = .finite x y →
      exec (.pdbl d a) s = .next t) ∧
    (∀ x y1 y2, s.readPT (lowIndex a) = .finite x y1 → s.readPT (lowIndex b) = .finite x y2 → y1 ≠ y2 →
      HoldsPoint t (lowIndex d) .infinity ∧ Completed s t .pointAtInfinity) ∧
    (∀ x1 y1 x2 y2, s.readPT (lowIndex a) = .finite x1 y1 → s.readPT (lowIndex b) = .finite x2 y2 → x1 ≠ x2 →
      ∃ l, l < Config.curve.p ∧
        ((x2 : Int) - x1) * l % (Config.curve.p : Int) = ((y2 : Int) - y1) % (Config.curve.p : Int) ∧
        EndsAtChord s t (lowIndex d) l x1 y1 x2)

/-- R83: padd(P, P) = pdbl(P), Infinity is the identity, and padd is commutative for all operands, on the curve or off
it, whatever curve record with the properties of 00_scope.md R7; for the commands too, result code included. -/
def Obligations.PointAdditionLaws : Prop :=
  (∀ C : Curve, C.Ok → ∀ P Q, ReducedPoint C P → ReducedPoint C Q →
    padd C P P = pdbl C P ∧ padd C P .infinity = P ∧ padd C .infinity P = P ∧ padd C P Q = padd C Q P) ∧
  (∀ (d a b : RegIndex) (s : State),
    exec (.padd d a b) s = exec (.padd d b a) s ∧ exec (.padd d a a) s = exec (.pdbl d a) s)

/-- R80: the inverses of the slopes exist, no point command reports NO_INVERSE, and a zero numerator of either slope
gives a finite result, the one of slope 0. -/
def Obligations.SlopeInversesExist : Prop :=
  (∀ x1 x2, x1 < Config.curve.p → x2 < Config.curve.p → x1 ≠ x2 →
    imod ((x2 : Int) - x1) Config.curve.p ≠ 0 ∧
    imod ((x2 : Int) - x1) Config.curve.p *
      invMod Config.curve.p (imod ((x2 : Int) - x1) Config.curve.p) % Config.curve.p = 1) ∧
  (∀ y, y < Config.curve.p → y ≠ 0 →
    2 * y % Config.curve.p ≠ 0 ∧
    2 * y % Config.curve.p * invMod Config.curve.p (2 * y % Config.curve.p) % Config.curve.p = 1) ∧
  (∀ (d a b : RegIndex) (s t : State),
    exec (.padd d a b) s = .next t ∨ exec (.pdbl d a) s = .next t ∨ exec (.pmul d a b) s = .next t → t.result ≠ 3#4) ∧
  (∀ x1 y x2, x1 < Config.curve.p → x2 < Config.curve.p → y < Config.curve.p → x1 ≠ x2 →
    padd Config.curve (.finite x1 y) (.finite x2 y) =
      .finite (imod (-(x1 : Int) - x2) Config.curve.p) (imod (-(y : Int)) Config.curve.p)) ∧
  (∀ x y, x < Config.curve.p → y < Config.curve.p → y ≠ 0 → (3 * x * x + Config.curve.a) % Config.curve.p = 0 →
    pdbl Config.curve (.finite x y) =
      .finite (imod (-2 * (x : Int)) Config.curve.p) (imod (-(y : Int)) Config.curve.p))

/-- 00_scope.md R15, 41_point_arith.md R77: whatever the operands, a point command that completes with OK leaves a
finite destination with both coordinates in [0, p−1]. -/
def Obligations.PointResultsAreReduced : Prop :=
  ∀ (d a b : RegIndex) (s t : State),
    exec (.padd d a b) s = .next t ∨ exec (.pdbl d a) s = .next t ∨ exec (.pmul d a b) s = .next t →
    t.result = 0#4 →
    t.readInf (lowIndex d) = false ∧ (t.readW (xReg (lowIndex d))).toNat < Config.curve.p ∧
      (t.readW (yReg (lowIndex d))).toNat < Config.curve.p

/-! ### Scalar multiplication (42_scalar_mult.md R84 to R87) -/

/-- R84, R85: PMUL on every scalar and point. With l the bit length of k: if a doubling before the last bit gives
Infinity it ends with INVALID_SCALAR_RESULT and writes nothing; else its result is the sum, from the low bit up, of the
doublings 2^i·P selected by the set bits of k, with POINT_AT_INFINITY when that sum is Infinity. -/
def Obligations.PmulIsTheSumOfSelectedDoublings : Prop :=
  ∀ (d k b : RegIndex) (s : State),
    let K := (s.readW k).toNat
    let double := fun i : Nat => (pdbl Config.curve)^[i] (s.readPT (lowIndex b))
    let sum := ((List.range (Nat.size K)).filter fun i => K.testBit i).foldl
      (fun acc i => padd Config.curve acc (double i)) .infinity
    fieldOPC (encode (.pmul d k b)) = 10#5 ∧
    ∃ t, exec (.pmul d k b) s = .next t ∧
      ((∃ i, 1 ≤ i ∧ i < Nat.size K ∧ double i = .infinity) →
        SameRegs s t ∧ Completed s t .invalidScalarResult) ∧
      ((∀ i, 1 ≤ i → i < Nat.size K → double i ≠ .infinity) →
        HoldsPoint t (lowIndex d) sum ∧ OnlyPT s t (lowIndex d) ∧
        Completed s t (if sum = .infinity then .pointAtInfinity else .ok))

/-- R85, R87: the corner cases of PMUL that hold for every point: k = 0, 1, 2 and 3, a source at Infinity, and a source
with y = 0. -/
def Obligations.PmulCornerCases : Prop :=
  ∀ (d k b : RegIndex) (s : State),
    ((s.readW k).toNat = 0 → ∃ t, exec (.pmul d k b) s = .next t ∧ HoldsPoint t (lowIndex d) .infinity ∧
      OnlyPT s t (lowIndex d) ∧ Completed s t .pointAtInfinity) ∧
    (∀ x y, (s.readW k).toNat = 1 → s.readPT (lowIndex b) = .finite x y →
      ∃ t, exec (.pmul d k b) s = .next t ∧ HoldsPoint t (lowIndex d) (.finite x y) ∧
        OnlyPT s t (lowIndex d) ∧ Completed s t .ok) ∧
    ((s.readW k).toNat = 1 → s.readPT (lowIndex b) = .infinity →
      ∃ t, exec (.pmul d k b) s = .next t ∧ HoldsPoint t (lowIndex d) .infinity ∧
        OnlyPT s t (lowIndex d) ∧ Completed s t .pointAtInfinity) ∧
    (2 ≤ (s.readW k).toNat →
      (s.readPT (lowIndex b) = .infinity ∨ ∃ x, s.readPT (lowIndex b) = .finite x 0) →
      ∃ t, exec (.pmul d k b) s = .next t ∧ SameRegs s t ∧ Completed s t .invalidScalarResult) ∧
    (∀ x y, (s.readW k).toNat = 2 → s.readPT (lowIndex b) = .finite x y → y ≠ 0 →
      exec (.pmul d k b) s = exec (.pdbl d b) s) ∧
    (∀ x y, (s.readW k).toNat = 3 → s.readPT (lowIndex b) = .finite x y → y ≠ 0 →
      exec (.pmul d k b) s = commitPT s (lowIndex d)
        (padd Config.curve (.finite x y) (pdbl Config.curve (.finite x y))))

/-! ### The register window (20_memory.md R30 to R42) -/

/-- R30: BASE is a multiple of 0x1000 and the core decodes from BASE + off the offset off. -/
def Obligations.WindowAddressGivesItsOffset : Prop :=
  Config.base % 0x1000 = 0 ∧ ∀ off : Offset, offsetOf (hostAddress off) = off

/-- R32: a misaligned transaction gets ERR, reads 0 and changes nothing; an aligned one gets OK. -/
def Obligations.MisalignedTransactionsAreErrors : Prop :=
  ∀ (off : Offset) (v : Word32) (s : State),
    (off.toNat % 4 ≠ 0 → memRead off s = (0#32, .err) ∧ memWrite off v s = (s, .err)) ∧
    (off.toNat % 4 = 0 → memRead off s = (readReg off s, .ok) ∧ memWrite off v s = (writeReg off v s, .ok))

/-- R34: reserved offsets read 0 and ignore writes, also while BUSY; reserved bits of CTRL, STATUS and INF read 0 and
ignore what is written to them. -/
def Obligations.ReservedOffsetsAndBits : Prop :=
  (∀ (off : Offset) (v : Word32) (s : State), off.toNat % 4 = 0 →
    (0x014 ≤ off.toNat ∧ off.toNat ≤ 0x0FC ∨ 0x300 ≤ off.toNat) →
    memRead off s = (0#32, .ok) ∧ memWrite off v s = (s, .ok)) ∧
  (∀ (v : Word32) (s : State) (k : Nat),
    (2 ≤ k → (memRead offCTRL s).1.getLsbD k = false) ∧
    (k = 3 ∨ 8 ≤ k → (memRead offSTATUS s).1.getLsbD k = false) ∧
    (8 ≤ k → (memRead offINF s).1.getLsbD k = false) ∧
    memWrite offCTRL v s = memWrite offCTRL (v &&& 0x00000003#32) s ∧
    memWrite offSTATUS v s = memWrite offSTATUS (v &&& 0x00000006#32) s ∧
    (s.busy = false → memWrite offINF v s = memWrite offINF (v &&& 0x000000FF#32) s))

/-- R35: ID reads its constant and ignores writes. -/
def Obligations.IdRegister : Prop :=
  ∀ (v : Word32) (s : State), memRead 0x000#12 s = (0xEC250001#32, .ok) ∧ memWrite 0x000#12 v s = (s, .ok)

/-- R36: CTRL. Bit 1 resets the core and bit 0 is then discarded; else bit 0 is IRQ_EN; whether or not BUSY = 1; 0 right
after reset. -/
def Obligations.CtrlRegister : Prop :=
  ∀ (v : Word32) (s : State),
    memRead 0x004#12 State.reset = (0#32, .ok) ∧
    (memRead 0x004#12 s).1.toNat = s.irqEn.toNat ∧
    (v.getLsbD 1 = true → (memWrite 0x004#12 v s).1 = s.resetCore) ∧
    (v.getLsbD 1 = false → (memWrite 0x004#12 v s).1 = { s with irqEn := v.getLsbD 0 })

/-- R37: STATUS. The word read, and the write-one-to-clear of DONE and BUSY_ERR, whether or not BUSY = 1; 0 right after
reset. -/
def Obligations.StatusRegister : Prop :=
  ∀ (v : Word32) (s : State),
    memRead 0x008#12 State.reset = (0#32, .ok) ∧
    (memRead 0x008#12 s).1.toNat = s.busy.toNat + 2 * s.done.toNat + 4 * s.busyErr.toNat + 16 * s.result.toNat ∧
    (memWrite 0x008#12 v s).1 =
      { s with done := s.done && !v.getLsbD 1, busyErr := s.busyErr && !v.getLsbD 2 }

/-- R38, 10_state.md R24: CMD reads the last word accepted for issue, also while BUSY = 1; a write issues, or is dropped
while BUSY = 1. -/
def Obligations.CmdRegister : Prop :=
  ∀ (v : Word32) (s : State),
    memRead 0x00C#12 s = (s.cmd, .ok) ∧
    (s.busy = false → memWrite 0x00C#12 v s = (s.issue v, .ok)) ∧
    (s.busy = true → memWrite 0x00C#12 v s = ({ s with busyErr := true }, .ok))

/-- R39: INF. -/
def Obligations.InfRegister : Prop :=
  ∀ (v : Word32) (s : State),
    (memRead 0x010#12 s).1.toNat = s.inf.toNat ∧
    (s.busy = false → ∃ t, memWrite 0x010#12 v s = (t, .ok) ∧ t = { s with inf := t.inf } ∧
      t.inf.toNat = v.toNat % 2 ^ 8) ∧
    (s.busy = true → memWrite 0x010#12 v s = ({ s with busyErr := true }, .ok))

/-- R40: the W window. Word j of W[r], at 0x100 + 32·r + 4·j, is the slice [255 − 32j : 224 − 32j]; a write while idle
replaces that slice and nothing else; while BUSY = 1 it is dropped. -/
def Obligations.WindowSlices : Prop :=
  ∀ (r : RegIndex) (j : Index3) (v : Word32) (s : State),
    let off : Offset := BitVec.ofNat 12 (0x100 + 32 * r.toNat + 4 * j.toNat)
    (∃ x, memRead off s = (x, .ok) ∧ x.toNat = (s.readW r).toNat / 2 ^ (224 - 32 * j.toNat) % 2 ^ 32) ∧
    (s.busy = false → ∃ t, memWrite off v s = (t, .ok) ∧ t = { s with w := t.w } ∧ memRead off t = (v, .ok) ∧
      (∀ q, q ≠ r → t.readW q = s.readW q) ∧
      (∀ k, k < 224 - 32 * j.toNat ∨ 256 - 32 * j.toNat ≤ k → (t.readW r).getLsbD k = (s.readW r).getLsbD k)) ∧
    (s.busy = true → memWrite off v s = ({ s with busyErr := true }, .ok))

/-- R41: while BUSY = 1 an aligned write to CMD, INF or the W window changes nothing but BUSY_ERR, so it does not disturb
the command in flight; no other write is affected by BUSY. -/
def Obligations.WritesWhileBusyAreDropped : Prop :=
  ∀ (off : Offset) (v : Word32) (s : State), off.toNat % 4 = 0 →
    ((off.toNat = 0x00C ∨ off.toNat = 0x010 ∨ 0x100 ≤ off.toNat ∧ off.toNat < 0x300) →
      s.busy = true → memWrite off v s = ({ s with busyErr := true }, .ok)) ∧
    (¬ (off.toNat = 0x00C ∨ off.toNat = 0x010 ∨ 0x100 ≤ off.toNat ∧ off.toNat < 0x300) →
      ∀ x : Bool, { (memWrite off v { s with busy := x }).1 with busy := false } =
        ({ (memWrite off v s).1 with busy := false } : State))

/-- R42: after a command is issued, and while it is pending, a read of INF or of the W window returns the value before
the issue, whatever host transactions but a soft reset come between. -/
def Obligations.ReadsWhileBusyGiveOldValues : Prop :=
  ∀ (s : State) (c : Word32) (ts : List Transaction) (off : Offset), s.busy = false →
    (∀ t ∈ ts, t.isSoftReset = false) →
    (off.toNat = 0x010 ∨ 0x100 ≤ off.toNat ∧ off.toNat < 0x300) →
    (runTransactions (.write offCMD c :: ts) s).busy = true ∧
    memRead off (runTransactions (.write offCMD c :: ts) s) = memRead off s

/-- R44: a read has no side effect: it changes nothing but the answer at the bus port. -/
def Obligations.ReadsHaveNoSideEffect : Prop :=
  ∀ (off : Offset) (s : State),
    hostTransaction (.read off) s = { s with response := some (.readDone (memRead off s).1 (memRead off s).2) }

/-- R43, R61, section 1 row S6 of 95_test_vectors.md: a 256-bit value written by `WR` to an idle core is what `RD`
returns, most significant word first, and no other register changes. -/
def Obligations.WrThenRdReturnsTheValue : Prop :=
  ∀ (r : RegIndex) (v : Word256) (s : State), s.busy = false →
    let t := runTransactions (wrTransactions r v) s
    joinWords (rdWords r t) = v ∧ t.readW r = v ∧ OnlyW s t r ∧ t.busyErr = s.busyErr

/-! ### Status, interrupt and reset -/

/-- 10_state.md R22, R96, V3 of 93_implementation_defined.md: BUSY exactly while a command is pending, never with DONE,
RESULT at most 4, CMD the pending word: kept by every step. -/
def Obligations.StepKeepsTheInvariant : Prop :=
  ∀ s t : State, s.Inv → step s = .next t → t.Inv

/-- The invariant holds right after reset. -/
def Obligations.ResetMeetsTheInvariant : Prop :=
  State.reset.Inv

/-- 10_state.md R29: after a hardware reset and after a soft reset every field has its reset value, and `irq` is 0. That
a hardware reset is a move of the agenda and leaves the moves still to come is the model's choice (log 1, log 4). -/
def Obligations.ResetValues : Prop :=
  State.reset.AtReset ∧ State.reset.irq = false ∧
  (∀ (s : State) (rest : List Move), s.agenda = .hardReset :: rest →
    ∃ t, step s = .next t ∧ t.AtReset ∧ t.irq = false ∧ t.agenda = rest) ∧
  (∀ (s : State) (v : Word32), v.getLsbD 1 = true →
    ∃ t, memWrite offCTRL v s = (t, .ok) ∧ t.AtReset ∧ t.irq = false)

/-- 70_reset_and_hazards.md R101: a soft reset, at any time, with BUSY = 1 too, leaves every field at its reset value and
discards the pending command: an engine's turn then completes nothing (that such a turn changes nothing at all is the
model's choice, log 10). -/
def Obligations.SoftResetDiscardsTheCommand : Prop :=
  ∀ (s : State) (v : Word32), v.getLsbD 1 = true →
    ∃ t, memWrite offCTRL v s = (t, .ok) ∧ t.AtReset ∧ engineTurn t = .next t

/-- 10_state.md R22: which events change each flag of STATUS, over every step of every agent. -/
def Obligations.StatusFlagsChangeOnlyByTheirEvents : Prop :=
  ∀ s t : State, s.Inv → step s = .next t →
    let completes := s.pending ≠ none ∧ (s.agenda = [] ∨ ∃ rest, s.agenda = .engine :: rest)
    let resets := ∃ m rest, s.agenda = m :: rest ∧ m.isReset = true
    let writesOnes := fun (k : Nat) => ∃ v rest, s.agenda = .host (.write offSTATUS v) :: rest ∧ v.getLsbD k = true
    let issues := s.busy = false ∧ ∃ v rest, s.agenda = .host (.write offCMD v) :: rest
    let drops := s.busy = true ∧ ∃ off v rest, s.agenda = .host (.write off v) :: rest ∧ off.toNat % 4 = 0 ∧
      (off.toNat = 0x00C ∨ off.toNat = 0x010 ∨ 0x100 ≤ off.toNat ∧ off.toNat < 0x300)
    (s.busy = false → t.busy = true → issues) ∧
    (s.busy = true → t.busy = false → completes ∨ resets) ∧
    (s.done = false → t.done = true → completes) ∧
    (s.done = true → t.done = false → issues ∨ writesOnes 1 ∨ resets) ∧
    (s.busyErr = false → t.busyErr = true → drops) ∧
    (s.busyErr = true → t.busyErr = false → writesOnes 2 ∨ resets) ∧
    (t.result ≠ s.result → completes ∨ resets)

/-- 10_state.md R23, R24: IRQ_EN changes only by a host write to CTRL or a reset; CMD only when a write to CMD issues a
command, and then to the word written, or at a reset. -/
def Obligations.ControlAndCmdChangeOnlyByTheHost : Prop :=
  ∀ s t : State, step s = .next t →
    (t.irqEn ≠ s.irqEn → (∃ v rest, s.agenda = .host (.write offCTRL v) :: rest) ∨ ∃ rest, s.agenda = .hardReset :: rest) ∧
    (t.cmd ≠ s.cmd → (s.busy = false ∧ ∃ rest, s.agenda = .host (.write offCMD t.cmd) :: rest) ∨
      (t.cmd = 0#32 ∧ ∃ m rest, s.agenda = m :: rest ∧ m.isReset = true))

/-- 10_state.md R17, R19, 20_memory.md R52: a data register or an Infinity flag changes only by a completion, by a host
write to the register's own place in the window while the core is idle, or by a reset. -/
def Obligations.RegistersChangeOnlyByTheirWriters : Prop :=
  ∀ s t : State, step s = .next t →
    let completes := s.pending ≠ none ∧ (s.agenda = [] ∨ ∃ rest, s.agenda = .engine :: rest)
    let resets := ∃ m rest, s.agenda = m :: rest ∧ m.isReset = true
    (∀ r, t.readW r ≠ s.readW r → completes ∨ resets ∨
      (s.busy = false ∧ ∃ j v rest, s.agenda = .host (.write (wordOffset r j) v) :: rest)) ∧
    (t.inf ≠ s.inf → completes ∨ resets ∨ (s.busy = false ∧ ∃ v rest, s.agenda = .host (.write offINF v) :: rest))

/-- 60_exceptions.md R94: the interrupt output is the level IRQ_EN AND DONE. Over every step (the moves' order is the
model's agenda, log 1): it is raised by a completion with IRQ_EN = 1 and by a write that enables it while DONE = 1; it is
dropped by the acknowledgement (R96), by an issue, by a write that masks it and by a reset; and it rises and falls by
nothing else. -/
def Obligations.InterruptRisesAndFallsOnlyByItsEvents : Prop :=
  (∀ s : State, s.irq = (s.irqEn && s.done)) ∧
  (∀ s t : State, step s = .next t →
    let completes := s.pending ≠ none ∧ (s.agenda = [] ∨ ∃ rest, s.agenda = .engine :: rest)
    let writes := fun (off : Offset) (v : Word32) => ∃ rest, s.agenda = .host (.write off v) :: rest
    let resets := ∃ m rest, s.agenda = m :: rest ∧ m.isReset = true
    (completes → t.irq = s.irqEn) ∧
    (∀ v, writes offCTRL v → v.getLsbD 1 = false → t.irq = (v.getLsbD 0 && s.done)) ∧
    (∀ v, writes offSTATUS v → v.getLsbD 1 = true → t.irq = false) ∧
    (∀ v, writes offCMD v → s.busy = false → t.irq = false) ∧
    (resets → t.irq = false) ∧
    (s.irq = false → t.irq = true →
      (completes ∧ s.irqEn = true) ∨
      (s.done = true ∧ ∃ v, writes offCTRL v ∧ v.getLsbD 1 = false ∧ v.getLsbD 0 = true)) ∧
    (s.irq = true → t.irq = false →
      (∃ v, writes offSTATUS v ∧ v.getLsbD 1 = true) ∨ (s.busy = false ∧ ∃ v, writes offCMD v) ∨
      (∃ v, writes offCTRL v ∧ v.getLsbD 1 = false ∧ v.getLsbD 0 = false) ∨ resets))

/-! ### Host operations and pseudo-instructions (30_encoding.md R61, R62) -/

/-- R61: SETINF and CLRINF on an idle core set and clear one flag and change no register and no other flag. -/
def Obligations.SetinfAndClrinfChangeOneFlag : Prop :=
  ∀ (d : Index3) (x : Bool) (s : State), s.busy = false →
    (performFlag d x s).readInf d = x ∧ (∀ i, i ≠ d → (performFlag d x s).readInf i = s.readInf i) ∧
    (∀ r, (performFlag d x s).readW r = s.readW r)

/-- R62: what each pseudo-instruction's expansion leaves, on an idle core whose host waits for each completion (log
17); MODNEG requires d ≠ a. -/
def Obligations.PseudoInstructionResults : Prop :=
  ∀ s : State, s.busy = false →
    (∀ m d a, ∃ t, performAll (Pseudo.modsqr m d a).expand s = .next t ∧
      (t.readW d).toNat = (s.readW a).toNat ^ 2 % modulus m ∧ OnlyW s t d ∧ t.busy = false) ∧
    (∀ m d a, ∃ t, performAll (Pseudo.moddbl m d a).expand s = .next t ∧
      (t.readW d).toNat = 2 * (s.readW a).toNat % modulus m ∧ OnlyW s t d ∧ t.busy = false) ∧
    (∀ d, ∃ t, performAll (Pseudo.clr d).expand s = .next t ∧
      t.readW d = 0#256 ∧ OnlyW s t d ∧ t.busy = false) ∧
    (∀ m d a, (Pseudo.modneg m d a).wellFormed = true → ∃ t, performAll (Pseudo.modneg m d a).expand s = .next t ∧
      ((t.readW d).toNat : Int) = (-((s.readW a).toNat : Int)) % (modulus m : Int) ∧ OnlyW s t d ∧ t.busy = false) ∧
    (∀ m d a r, (s.readW r).toNat = 2 ^ 512 % modulus m → ∃ t, performAll (Pseudo.tomont m d a r).expand s = .next t ∧
      (t.readW d).toNat = (s.readW a).toNat * 2 ^ 256 % modulus m ∧ OnlyW s t d ∧ t.busy = false) ∧
    (∀ m d a o, (s.readW o).toNat = 1 → ∃ t, performAll (Pseudo.frommont m d a o).expand s = .next t ∧
      (t.readW d).toNat < modulus m ∧ (t.readW d).toNat * 2 ^ 256 % modulus m = (s.readW a).toNat % modulus m ∧
      OnlyW s t d ∧ t.busy = false) ∧
    (∀ d, ∃ t, performAll (Pseudo.ldg d).expand s = .next t ∧
      t.readPT d = .finite Config.curve.gx Config.curve.gy ∧ OnlyPT s t d ∧ t.busy = false)
end

