-- ==== Sys2Proof/Laws/Primes.lean ====
section
/-! SUPPORT. The two moduli of P-256 are prime (00_scope.md R7), by Lucas's test with the factors of m − 1: a chain of
certificates, each a list of prime factors and a witness. -/

namespace Sys2Proof.Laws

/-- `b ^ e % m` by repeated squaring; the first argument bounds the number of bits of `e`. -/
def powMod (m : Nat) : Nat → Nat → Nat → Nat
  | 0, _, _ => 1 % m
  | fuel + 1, b, e =>
    if e % 2 = 1 then b * powMod m fuel (b * b % m) (e / 2) % m else powMod m fuel (b * b % m) (e / 2)

theorem powMod_eq (m : Nat) : ∀ fuel b e, e < 2 ^ fuel → powMod m fuel b e = b ^ e % m := by
  intro fuel
  induction fuel with
  | zero => intro b e h; obtain rfl : e = 0 := by omega
            rfl
  | succ fuel ih =>
    intro b e h
    have hlt : e / 2 < 2 ^ fuel := by omega
    have half : (b * b % m) ^ (e / 2) % m = b ^ (2 * (e / 2)) % m := by
      rw [← Nat.pow_mod, ← pow_two, ← pow_mul]
    simp only [powMod, ih _ _ hlt, half]
    split
    · next hodd =>
      have he : e = 2 * (e / 2) + 1 := by omega
      conv_rhs => rw [he, pow_succ']
      rw [Nat.mul_mod, Nat.mod_mod, ← Nat.mul_mod]
    · next heven =>
      have he : e = 2 * (e / 2) := by omega
      conv_rhs => rw [he]

/-- Lucas's test as one check on numerals. -/
def lucasCheck (p a : Nat) (factors : List Nat) : Bool :=
  decide (1 < p) && decide (p < 2 ^ 256) && factors.prod == p - 1 && powMod p 256 a (p - 1) == 1 &&
    factors.all fun q => powMod p 256 a ((p - 1) / q) != 1

theorem prime_of_lucasCheck {p a : Nat} {factors : List Nat} (h : lucasCheck p a factors = true)
    (hf : ∀ q ∈ factors, Nat.Prime q) : Nat.Prime p := by
  simp only [lucasCheck, Bool.and_eq_true, decide_eq_true_eq, beq_iff_eq, List.all_eq_true, bne_iff_ne] at h
  obtain ⟨⟨⟨⟨h1, h2⟩, hprod⟩, hone⟩, hne⟩ := h
  have cast : ∀ e, e < 2 ^ 256 → (powMod p 256 a e = 1 ↔ (a : ZMod p) ^ e = 1) := by
    intro e he
    rw [powMod_eq p 256 a e he, ← Nat.mod_eq_of_lt h1, ← Nat.ModEq, ← ZMod.natCast_eq_natCast_iff]
    simp
  refine lucas_primality p (a : ZMod p) ((cast _ (by omega)).1 hone) ?_
  intro q hq hdvd
  have hmem : q ∈ factors := by
    rw [← hprod] at hdvd
    obtain ⟨r, hr, hqr⟩ := (Prime.dvd_prod_iff hq.prime).1 hdvd
    exact (Nat.prime_dvd_prime_iff_eq hq (hf r hr)).1 hqr ▸ hr
  exact fun hc => hne q hmem ((cast _ (lt_of_le_of_lt (Nat.div_le_self _ _) (by omega))).2 hc)

theorem prime_1297 : Nat.Prime 1297 := by norm_num

theorem prime_1531 : Nat.Prime 1531 := by norm_num

theorem prime_2411 : Nat.Prime 2411 := by norm_num

theorem prime_3023 : Nat.Prime 3023 := by norm_num

theorem prime_3407 : Nat.Prime 3407 := by norm_num

theorem prime_3677 : Nat.Prime 3677 := by norm_num

theorem prime_3769 : Nat.Prime 3769 := by norm_num

theorem prime_16879 : Nat.Prime 16879 := by norm_num

theorem prime_17449 : Nat.Prime 17449 := by norm_num

theorem prime_18169 : Nat.Prime 18169 := by norm_num

theorem prime_38189 : Nat.Prime 38189 := by norm_num

theorem prime_65537 : Nat.Prime 65537 := by norm_num

theorem prime_78283 : Nat.Prime 78283 := by norm_num

theorem prime_126241 : Nat.Prime 126241 := by norm_num

theorem prime_155317 : Nat.Prime 155317 := by norm_num

theorem prime_490463 : Nat.Prime 490463 := by norm_num

theorem prime_704251 : Nat.Prime 704251 := by norm_num

theorem prime_3969899 : Nat.Prime 3969899 := by norm_num

theorem prime_6700417 : Nat.Prime 6700417 := by norm_num

theorem prime_9350987 : Nat.Prime 9350987 := by norm_num

theorem prime_204061199 : Nat.Prime 204061199 :=
  prime_of_lucasCheck (a := 11) (factors := [2, 11, 23, 107, 3769]) (by decide +kernel) (by
    simp only [List.forall_mem_cons]
    exact ⟨by norm_num, by norm_num, by norm_num, by norm_num, prime_3769, by simp⟩)

theorem prime_34282281433 : Nat.Prime 34282281433 :=
  prime_of_lucasCheck (a := 17) (factors := [2, 2, 2, 3, 7, 204061199]) (by decide +kernel) (by
    simp only [List.forall_mem_cons]
    exact ⟨by norm_num, by norm_num, by norm_num, by norm_num, by norm_num, prime_204061199, by simp⟩)

theorem prime_66417393611 : Nat.Prime 66417393611 :=
  prime_of_lucasCheck (a := 6) (factors := [2, 5, 53, 173, 197, 3677]) (by decide +kernel) (by
    simp only [List.forall_mem_cons]
    exact ⟨by norm_num, by norm_num, by norm_num, by norm_num, by norm_num, prime_3677, by simp⟩)

theorem prime_11290956913871 : Nat.Prime 11290956913871 :=
  prime_of_lucasCheck (a := 13) (factors := [2, 5, 17, 66417393611]) (by decide +kernel) (by
    simp only [List.forall_mem_cons]
    exact ⟨by norm_num, by norm_num, by norm_num, prime_66417393611, by simp⟩)

theorem prime_46076956964474543 : Nat.Prime 46076956964474543 :=
  prime_of_lucasCheck (a := 5) (factors := [2, 23, 18169, 78283, 704251]) (by decide +kernel) (by
    simp only [List.forall_mem_cons]
    exact ⟨by norm_num, by norm_num, prime_18169, prime_78283, prime_704251, by simp⟩)

theorem prime_774023187263532362759620327192479577272145303 : Nat.Prime 774023187263532362759620327192479577272145303 :=
  prime_of_lucasCheck (a := 3) (factors := [2, 3, 3, 2411, 34282281433, 11290956913871, 46076956964474543]) (by decide +kernel) (by
    simp only [List.forall_mem_cons]
    exact ⟨by norm_num, by norm_num, by norm_num, prime_2411, prime_34282281433, prime_11290956913871, prime_46076956964474543, by simp⟩)

theorem prime_835945042244614951780389953367877943453916927241 : Nat.Prime 835945042244614951780389953367877943453916927241 :=
  prime_of_lucasCheck (a := 11) (factors := [2, 2, 2, 3, 3, 3, 5, 774023187263532362759620327192479577272145303]) (by decide +kernel) (by
    simp only [List.forall_mem_cons]
    exact ⟨by norm_num, by norm_num, by norm_num, by norm_num, by norm_num, by norm_num, by norm_num, prime_774023187263532362759620327192479577272145303, by simp⟩)

theorem p256_p_prime : Nat.Prime Config.p256.p :=
  prime_of_lucasCheck (a := 6) (factors := [2, 3, 5, 5, 17, 257, 641, 1531, 65537, 490463, 6700417, 835945042244614951780389953367877943453916927241]) (by decide +kernel) (by
    simp only [List.forall_mem_cons]
    exact ⟨by norm_num, by norm_num, by norm_num, by norm_num, by norm_num, by norm_num, by norm_num, prime_1531, prime_65537, prime_490463, prime_6700417, prime_835945042244614951780389953367877943453916927241, by simp⟩)

theorem prime_187019741 : Nat.Prime 187019741 :=
  prime_of_lucasCheck (a := 2) (factors := [2, 2, 5, 9350987]) (by decide +kernel) (by
    simp only [List.forall_mem_cons]
    exact ⟨by norm_num, by norm_num, by norm_num, prime_9350987, by simp⟩)

theorem prime_311245691 : Nat.Prime 311245691 :=
  prime_of_lucasCheck (a := 2) (factors := [2, 5, 7, 17, 29, 29, 311]) (by decide +kernel) (by
    simp only [List.forall_mem_cons]
    exact ⟨by norm_num, by norm_num, by norm_num, by norm_num, by norm_num, by norm_num, by norm_num, by simp⟩)

theorem prime_622491383 : Nat.Prime 622491383 :=
  prime_of_lucasCheck (a := 5) (factors := [2, 311245691]) (by decide +kernel) (by
    simp only [List.forall_mem_cons]
    exact ⟨by norm_num, prime_311245691, by simp⟩)

theorem prime_1002328039319 : Nat.Prime 1002328039319 :=
  prime_of_lucasCheck (a := 19) (factors := [2, 126241, 3969899]) (by decide +kernel) (by
    simp only [List.forall_mem_cons]
    exact ⟨by norm_num, prime_126241, prime_3969899, by simp⟩)

theorem prime_191039911 : Nat.Prime 191039911 :=
  prime_of_lucasCheck (a := 3) (factors := [2, 3, 5, 41, 155317]) (by decide +kernel) (by
    simp only [List.forall_mem_cons]
    exact ⟨by norm_num, by norm_num, by norm_num, by norm_num, prime_155317, by simp⟩)

theorem prime_208150935158385979 : Nat.Prime 208150935158385979 :=
  prime_of_lucasCheck (a := 2) (factors := [2, 3, 11, 43, 127, 3023, 191039911]) (by decide +kernel) (by
    simp only [List.forall_mem_cons]
    exact ⟨by norm_num, by norm_num, by norm_num, by norm_num, by norm_num, prime_3023, prime_191039911, by simp⟩)

theorem prime_2624747550333869278416773953 : Nat.Prime 2624747550333869278416773953 :=
  prime_of_lucasCheck (a := 7) (factors := [2, 2, 2, 2, 2, 2, 3, 3, 1297, 16879, 208150935158385979]) (by decide +kernel) (by
    simp only [List.forall_mem_cons]
    exact ⟨by norm_num, by norm_num, by norm_num, by norm_num, by norm_num, by norm_num, by norm_num, by norm_num, prime_1297, prime_16879, prime_208150935158385979, by simp⟩)

theorem p256_n_prime : Nat.Prime Config.p256.n :=
  prime_of_lucasCheck (a := 7) (factors := [2, 2, 2, 2, 3, 71, 131, 373, 3407, 17449, 38189, 187019741, 622491383, 1002328039319, 2624747550333869278416773953]) (by decide +kernel) (by
    simp only [List.forall_mem_cons]
    exact ⟨by norm_num, by norm_num, by norm_num, by norm_num, by norm_num, by norm_num, by norm_num, by norm_num, prime_3407, prime_17449, prime_38189, prime_187019741, prime_622491383, prime_1002328039319, prime_2624747550333869278416773953, by simp⟩)

end Sys2Proof.Laws
end

