-- ==== Sys2Proof/Laws/Arith.lean ====
section
/-! SUPPORT. What the arithmetic of Machine/Arith.lean gives, once each: `imod`, the inverse, `bitlen`, the moduli. -/

namespace Sys2Proof.Machine

/-! ### The mathematical mod -/

theorem imod_cast (x : Int) {m : Nat} (hm : 0 < m) : ((imod x m : Nat) : Int) = x % m := by
  rw [imod, Int.toNat_of_nonneg (Int.emod_nonneg _ (by omega))]

theorem imod_lt (x : Int) {m : Nat} (hm : 0 < m) : imod x m < m := by
  have := imod_cast x hm
  have := Int.emod_lt_of_pos x (show (0 : Int) < m by omega)
  omega

theorem imod_natCast (x m : Nat) : imod (x : Int) m = x % m := by
  rw [imod, ← Int.natCast_mod, Int.toNat_natCast]

/-- In ZMod m the mod disappears. -/
theorem imod_zmod (x : Int) {m : Nat} (hm : 0 < m) : ((imod x m : Nat) : ZMod m) = (x : ZMod m) := by
  rw [← Int.cast_natCast, imod_cast x hm, ZMod.intCast_mod]

/-! ### The inverse -/

/-- The extended Euclidean algorithm returns a cofactor t with x·t ≡ gcd (mod m), whenever its fuel suffices. -/
theorem euclid_spec (m x : Int) : ∀ (fuel r0 r1 : Nat) (t0 t1 : Int), 0 < r1 → r1 < r0 → r0 * r1 < 2 ^ fuel →
    m ∣ x * t0 - r0 → m ∣ x * t1 - r1 →
    m ∣ x * euclid fuel r0 r1 t0 t1 - (Nat.gcd r0 r1 : Nat) := by
  intro fuel
  induction fuel with
  | zero =>
    intro r0 r1 _ _ h1 h2 h3
    have : 0 < r0 * r1 := Nat.mul_pos (by omega) h1
    omega
  | succ fuel ih =>
    intro r0 r1 t0 t1 h1 h2 h3 hd0 hd1
    rw [euclid]
    split
    · next h0 => rwa [Nat.gcd_comm, Nat.gcd_rec, h0, Nat.gcd_zero_left]
    · next h0 =>
      have hlt : r0 % r1 < r1 := Nat.mod_lt _ h1
      have hdm : r1 * (r0 / r1) + r0 % r1 = r0 := Nat.div_add_mod r0 r1
      have hge : r1 + r0 % r1 ≤ r0 := by
        have : 1 ≤ r0 / r1 := (Nat.one_le_div_iff h1).2 h2.le
        nlinarith
      rw [Nat.gcd_comm, Nat.gcd_rec, Nat.gcd_comm]
      refine ih r1 (r0 % r1) t1 _ (Nat.pos_of_ne_zero h0) hlt ?_ hd1 ?_
      · have : 2 * (r1 * (r0 % r1)) ≤ r0 * r1 := by nlinarith
        omega
      · have hz : ((r0 % r1 : Nat) : Int) = r0 - r1 * (r0 / r1 : Nat) := by
          have : ((r1 * (r0 / r1) + r0 % r1 : Nat) : Int) = r0 := by rw [hdm]
          push_cast at this ⊢
          linarith
        have : x * (t0 - (r0 / r1 : Nat) * t1) - (r0 % r1 : Nat) =
            (x * t0 - r0) - (r0 / r1 : Nat) * (x * t1 - r1) := by rw [hz]; ring
        rw [this]
        exact dvd_sub hd0 (Dvd.dvd.mul_left hd1 _)

/-- `invMod m x` is an inverse of x modulo m whenever there is one. -/
theorem invMod_spec {m x : Nat} (hm : 1 < m) (hlt : m < 2 ^ 256) (hg : Nat.Coprime x m) :
    x * invMod m x % m = 1 := by
  have hm0 : 0 < m := by omega
  have hx0 : 0 < x % m := by
    refine Nat.pos_of_ne_zero fun h => ?_
    have := Nat.Coprime.eq_one_of_dvd (Nat.coprime_comm.1 hg) (Nat.dvd_of_mod_eq_zero h)
    omega
  have hxm : x % m < m := Nat.mod_lt _ hm0
  have hb : m * (x % m) < 2 ^ 512 := by
    calc m * (x % m) < 2 ^ 256 * 2 ^ 256 := Nat.mul_lt_mul_of_lt_of_lt hlt (by omega)
      _ = 2 ^ 512 := by rw [← pow_add]
  have hgcd : Nat.gcd m (x % m) = 1 := by rw [← Nat.gcd_comm, ← Nat.gcd_rec, Nat.gcd_comm]; exact hg
  have key := euclid_spec m (x % m : Nat) 512 m (x % m) 0 1 hx0 hxm hb (by simp) (by simp)
  rw [hgcd] at key
  have hz : ((x * invMod m x : Nat) : ZMod m) = ((1 : Nat) : ZMod m) := by
    rw [Nat.cast_mul, invMod, imod_zmod _ hm0]
    have := (ZMod.intCast_zmod_eq_zero_iff_dvd _ m).2 key
    push_cast at this ⊢
    simpa [sub_eq_zero] using this
  have := (ZMod.natCast_eq_natCast_iff _ _ _).1 hz
  rw [Nat.ModEq, Nat.mod_eq_of_lt hm] at this
  exact this

/-- For a prime modulus: `inv_m(x)` is in [1, m−1] and x·inv_m(x) mod m = 1 (00_scope.md R12). -/
theorem invMod_prime {m x : Nat} (hp : Nat.Prime m) (hlt : m < 2 ^ 256) (hx : x % m ≠ 0) :
    1 ≤ invMod m x ∧ invMod m x ≤ m - 1 ∧ x * invMod m x % m = 1 := by
  have hone := invMod_spec hp.one_lt hlt
    (((Nat.Prime.coprime_iff_not_dvd hp).2 fun h => hx (Nat.mod_eq_zero_of_dvd h)).symm)
  refine ⟨Nat.pos_of_ne_zero fun h => ?_, ?_, hone⟩
  · rw [h] at hone; simp at hone
  · have := imod_lt (euclid 512 m (x % m) 0 1) hp.pos
    unfold invMod
    omega

/-- The inverse is unique (00_scope.md R12). -/
theorem inverse_unique {m x y z : Nat} (hy : y < m) (hz : z < m) (h1 : x * y % m = 1) (h2 : x * z % m = 1) :
    y = z := by
  have hm : 1 < m := by
    by_contra h
    have : x * y % m < m := Nat.mod_lt _ (by omega)
    omega
  have e1 : (x : ZMod m) * y = 1 := by
    have : ((x * y : Nat) : ZMod m) = ((1 : Nat) : ZMod m) :=
      (ZMod.natCast_eq_natCast_iff _ _ _).2 (by rw [Nat.ModEq, h1, Nat.mod_eq_of_lt hm])
    simpa using this
  have e2 : (x : ZMod m) * z = 1 := by
    have : ((x * z : Nat) : ZMod m) = ((1 : Nat) : ZMod m) :=
      (ZMod.natCast_eq_natCast_iff _ _ _).2 (by rw [Nat.ModEq, h2, Nat.mod_eq_of_lt hm])
    simpa using this
  have : (y : ZMod m) = z := by linear_combination (z : ZMod m) * e1 - (y : ZMod m) * e2
  have := (ZMod.natCast_eq_natCast_iff _ _ _).1 this
  rwa [Nat.ModEq, Nat.mod_eq_of_lt hy, Nat.mod_eq_of_lt hz] at this

/-! ### The length of a scalar -/

/-- `bitlen k` is the least l with k < 2^l (00_scope.md R12). -/
theorem bitlen_eq_size (k : Nat) : bitlen k = Nat.size k := by
  unfold bitlen
  split
  · next h => simp [h]
  · next h =>
    refine le_antisymm ?_ (Nat.size_le.2 (Nat.lt_log2_self))
    by_contra hc
    exact absurd (Nat.size_le.1 (show Nat.size k ≤ Nat.log2 k by omega)) (by simpa using Nat.log2_self_le h)

/-! ### The moduli of the machine -/

/-! The moduli of any curve record with the properties of 00_scope.md R7. -/

theorem modulus_prime_of {C : Curve} (hC : C.Ok) (m : Modulus) : Nat.Prime (modulus m C) := by
  cases m with
  | p => exact hC.p_prime
  | n => exact hC.n_prime

theorem modulus_lt_of {C : Curve} (hC : C.Ok) (m : Modulus) : modulus m C < 2 ^ 256 := by
  cases m with
  | p => exact hC.p_lt
  | n => exact hC.n_lt

theorem modulus_odd_of {C : Curve} (hC : C.Ok) (m : Modulus) : modulus m C % 2 = 1 := by
  cases m with
  | p => exact hC.p_odd
  | n => exact hC.n_odd

/-! The moduli of the default record. -/

theorem modulus_prime (m : Modulus) : Nat.Prime (modulus m) := by
  cases m
  · exact Laws.p256_p_prime
  · exact Laws.p256_n_prime

theorem modulus_lt (m : Modulus) : modulus m < 2 ^ 256 := by
  cases m <;> decide

theorem modulus_odd (m : Modulus) : modulus m % 2 = 1 := by
  cases m <;> decide

/-- A value below a modulus is written to a register unchanged (40_field_arith.md R68). -/
theorem toNat_ofNat_of_lt {v : Nat} (h : v < 2 ^ 256) : (BitVec.ofNat 256 v).toNat = v := by
  rw [BitVec.toNat_ofNat, Nat.mod_eq_of_lt h]

end Sys2Proof.Machine
end

