-- ==== Sys2Proof/Laws/State.lean ====
section
/-! SUPPORT. One lemma per field per update of State, and the read-after-write laws of the registers, so that no proof
unfolds a record update. -/

namespace Sys2Proof.Machine

open State

variable (s : State)

/-! ### Data registers -/

@[simp] theorem readW_writeW_self (r : RegIndex) (v : Word256) : (s.writeW r v).readW r = v := by
  simp [readW, writeW]

theorem readW_writeW_ne {r r' : RegIndex} (h : r' ≠ r) (v : Word256) : (s.writeW r v).readW r' = s.readW r' := by
  have : r.toNat ≠ r'.toNat := fun e => h (BitVec.eq_of_toNat_eq e.symm)
  simp [readW, writeW, this]

theorem readW_writeW (r r' : RegIndex) (v : Word256) :
    (s.writeW r v).readW r' = if r' = r then v else s.readW r' := by
  split
  · next h => subst h; simp
  · next h => exact readW_writeW_ne s h v

@[simp] theorem writeW_inf (r : RegIndex) (v : Word256) : (s.writeW r v).inf = s.inf := rfl
@[simp] theorem writeW_irqEn (r : RegIndex) (v : Word256) : (s.writeW r v).irqEn = s.irqEn := rfl
@[simp] theorem writeW_busy (r : RegIndex) (v : Word256) : (s.writeW r v).busy = s.busy := rfl
@[simp] theorem writeW_done (r : RegIndex) (v : Word256) : (s.writeW r v).done = s.done := rfl
@[simp] theorem writeW_busyErr (r : RegIndex) (v : Word256) : (s.writeW r v).busyErr = s.busyErr := rfl
@[simp] theorem writeW_result (r : RegIndex) (v : Word256) : (s.writeW r v).result = s.result := rfl
@[simp] theorem writeW_cmd (r : RegIndex) (v : Word256) : (s.writeW r v).cmd = s.cmd := rfl
@[simp] theorem writeW_pending (r : RegIndex) (v : Word256) : (s.writeW r v).pending = s.pending := rfl
@[simp] theorem writeW_agenda (r : RegIndex) (v : Word256) : (s.writeW r v).agenda = s.agenda := rfl
@[simp] theorem writeW_response (r : RegIndex) (v : Word256) : (s.writeW r v).response = s.response := rfl
@[simp] theorem writeW_readInf (r : RegIndex) (v : Word256) (i : Index3) : (s.writeW r v).readInf i = s.readInf i := rfl

/-! ### Infinity flags -/

theorem setBit8_getLsbD (x : BitVec 8) (i k : Index3) (b : Bool) :
    (setBit8 x i b).getLsbD k.toNat = if k = i then b else x.getLsbD k.toNat := by
  have hk : k.toNat < 8 := k.isLt
  have hi : i.toNat < 8 := i.isLt
  by_cases h : k = i
  · subst h
    cases b <;> simp [setBit8, hk]
  · have hne : k.toNat ≠ i.toNat := fun e => h (BitVec.eq_of_toNat_eq e)
    cases b <;> simp [setBit8, hk, h] <;> omega

@[simp] theorem readInf_writeInf_self (i : Index3) (b : Bool) : (s.writeInf i b).readInf i = b := by
  simp [readInf, writeInf, setBit8_getLsbD]

theorem readInf_writeInf_ne {i k : Index3} (h : k ≠ i) (b : Bool) : (s.writeInf i b).readInf k = s.readInf k := by
  simp [readInf, writeInf, setBit8_getLsbD, h]

@[simp] theorem writeInf_readW (i : Index3) (b : Bool) (r : RegIndex) : (s.writeInf i b).readW r = s.readW r := rfl
@[simp] theorem writeInf_irqEn (i : Index3) (b : Bool) : (s.writeInf i b).irqEn = s.irqEn := rfl
@[simp] theorem writeInf_busy (i : Index3) (b : Bool) : (s.writeInf i b).busy = s.busy := rfl
@[simp] theorem writeInf_done (i : Index3) (b : Bool) : (s.writeInf i b).done = s.done := rfl
@[simp] theorem writeInf_busyErr (i : Index3) (b : Bool) : (s.writeInf i b).busyErr = s.busyErr := rfl
@[simp] theorem writeInf_result (i : Index3) (b : Bool) : (s.writeInf i b).result = s.result := rfl
@[simp] theorem writeInf_cmd (i : Index3) (b : Bool) : (s.writeInf i b).cmd = s.cmd := rfl
@[simp] theorem writeInf_pending (i : Index3) (b : Bool) : (s.writeInf i b).pending = s.pending := rfl
@[simp] theorem writeInf_agenda (i : Index3) (b : Bool) : (s.writeInf i b).agenda = s.agenda := rfl
@[simp] theorem writeInf_response (i : Index3) (b : Bool) : (s.writeInf i b).response = s.response := rfl

/-! ### Issue -/

@[simp] theorem issue_readW (c : Word32) (r : RegIndex) : (s.issue c).readW r = s.readW r := rfl
@[simp] theorem issue_inf (c : Word32) : (s.issue c).inf = s.inf := rfl
@[simp] theorem issue_irqEn (c : Word32) : (s.issue c).irqEn = s.irqEn := rfl
@[simp] theorem issue_busy (c : Word32) : (s.issue c).busy = true := rfl
@[simp] theorem issue_done (c : Word32) : (s.issue c).done = false := rfl
@[simp] theorem issue_busyErr (c : Word32) : (s.issue c).busyErr = s.busyErr := rfl
@[simp] theorem issue_result (c : Word32) : (s.issue c).result = s.result := rfl
@[simp] theorem issue_cmd (c : Word32) : (s.issue c).cmd = c := rfl
@[simp] theorem issue_pending (c : Word32) : (s.issue c).pending = some c := rfl
@[simp] theorem issue_agenda (c : Word32) : (s.issue c).agenda = s.agenda := rfl
@[simp] theorem issue_response (c : Word32) : (s.issue c).response = s.response := rfl

/-! ### The end of a command -/

@[simp] theorem finish_readW (k : ResultCode) (r : RegIndex) : (s.finish k).readW r = s.readW r := rfl
@[simp] theorem finish_inf (k : ResultCode) : (s.finish k).inf = s.inf := rfl
@[simp] theorem finish_readInf (k : ResultCode) (i : Index3) : (s.finish k).readInf i = s.readInf i := rfl
@[simp] theorem finish_irqEn (k : ResultCode) : (s.finish k).irqEn = s.irqEn := rfl
@[simp] theorem finish_busy (k : ResultCode) : (s.finish k).busy = false := rfl
@[simp] theorem finish_done (k : ResultCode) : (s.finish k).done = true := rfl
@[simp] theorem finish_busyErr (k : ResultCode) : (s.finish k).busyErr = s.busyErr := rfl
@[simp] theorem finish_result (k : ResultCode) : (s.finish k).result = k.bits := rfl
@[simp] theorem finish_cmd (k : ResultCode) : (s.finish k).cmd = s.cmd := rfl
@[simp] theorem finish_pending (k : ResultCode) : (s.finish k).pending = none := rfl
@[simp] theorem finish_agenda (k : ResultCode) : (s.finish k).agenda = s.agenda := rfl
@[simp] theorem finish_response (k : ResultCode) : (s.finish k).response = s.response := rfl
@[simp] theorem raiseCode_eq (k : ResultCode) : s.raiseCode k = s.finish k := rfl

/-! ### Reset -/

@[simp] theorem reset_readW (r : RegIndex) : State.reset.readW r = 0#256 := by
  simp [readW, State.reset]

@[simp] theorem resetCore_readW (r : RegIndex) : s.resetCore.readW r = 0#256 := reset_readW r
@[simp] theorem resetCore_inf : s.resetCore.inf = 0#8 := rfl
@[simp] theorem resetCore_irqEn : s.resetCore.irqEn = false := rfl
@[simp] theorem resetCore_busy : s.resetCore.busy = false := rfl
@[simp] theorem resetCore_done : s.resetCore.done = false := rfl
@[simp] theorem resetCore_busyErr : s.resetCore.busyErr = false := rfl
@[simp] theorem resetCore_result : s.resetCore.result = 0#4 := rfl
@[simp] theorem resetCore_cmd : s.resetCore.cmd = 0#32 := rfl
@[simp] theorem resetCore_pending : s.resetCore.pending = none := rfl
@[simp] theorem resetCore_agenda : s.resetCore.agenda = s.agenda := rfl
@[simp] theorem resetCore_response : s.resetCore.response = s.response := rfl

/-! ### Host writes -/

@[simp] theorem dropWrite_readW (r : RegIndex) : s.dropWrite.readW r = s.readW r := rfl
@[simp] theorem dropWrite_inf : s.dropWrite.inf = s.inf := rfl
@[simp] theorem dropWrite_irqEn : s.dropWrite.irqEn = s.irqEn := rfl
@[simp] theorem dropWrite_busy : s.dropWrite.busy = s.busy := rfl
@[simp] theorem dropWrite_done : s.dropWrite.done = s.done := rfl
@[simp] theorem dropWrite_busyErr : s.dropWrite.busyErr = true := rfl
@[simp] theorem dropWrite_result : s.dropWrite.result = s.result := rfl
@[simp] theorem dropWrite_cmd : s.dropWrite.cmd = s.cmd := rfl
@[simp] theorem dropWrite_pending : s.dropWrite.pending = s.pending := rfl
@[simp] theorem dropWrite_agenda : s.dropWrite.agenda = s.agenda := rfl
@[simp] theorem dropWrite_response : s.dropWrite.response = s.response := rfl

@[simp] theorem writeStatus_readW (v : Word32) (r : RegIndex) : (s.writeStatus v).readW r = s.readW r := rfl
@[simp] theorem writeStatus_inf (v : Word32) : (s.writeStatus v).inf = s.inf := rfl
@[simp] theorem writeStatus_irqEn (v : Word32) : (s.writeStatus v).irqEn = s.irqEn := rfl
@[simp] theorem writeStatus_busy (v : Word32) : (s.writeStatus v).busy = s.busy := rfl
@[simp] theorem writeStatus_done (v : Word32) : (s.writeStatus v).done = if v.getLsbD 1 then false else s.done := rfl
@[simp] theorem writeStatus_busyErr (v : Word32) :
    (s.writeStatus v).busyErr = if v.getLsbD 2 then false else s.busyErr := rfl
@[simp] theorem writeStatus_result (v : Word32) : (s.writeStatus v).result = s.result := rfl
@[simp] theorem writeStatus_cmd (v : Word32) : (s.writeStatus v).cmd = s.cmd := rfl
@[simp] theorem writeStatus_pending (v : Word32) : (s.writeStatus v).pending = s.pending := rfl
@[simp] theorem writeStatus_agenda (v : Word32) : (s.writeStatus v).agenda = s.agenda := rfl
@[simp] theorem writeStatus_response (v : Word32) : (s.writeStatus v).response = s.response := rfl

/-! ### Point registers -/

theorem xReg_toNat (i : Index3) : (xReg i).toNat = 2 * i.toNat := by
  revert i; decide

theorem yReg_toNat (i : Index3) : (yReg i).toNat = 2 * i.toNat + 1 := by
  revert i; decide

theorem xReg_ne_yReg (i k : Index3) : xReg i ≠ yReg k := by
  revert i k; decide

/-- Two states with the same registers hold the same points. -/
theorem readPT_congr {C : Curve} {s t : State} (hw : ∀ r, t.readW r = s.readW r) (hi : t.inf = s.inf) (i : Index3) :
    t.readPT i C = s.readPT i C := by
  have hk : t.readInf i = s.readInf i := by rw [readInf, readInf, hi]
  rw [readPT, readPT, hk, val, val, val, val, hw, hw]

variable (i : Index3) (P : Point)

@[simp] theorem writePT_irqEn : (s.writePT i P).irqEn = s.irqEn := by cases P <;> rfl
@[simp] theorem writePT_busy : (s.writePT i P).busy = s.busy := by cases P <;> rfl
@[simp] theorem writePT_done : (s.writePT i P).done = s.done := by cases P <;> rfl
@[simp] theorem writePT_busyErr : (s.writePT i P).busyErr = s.busyErr := by cases P <;> rfl
@[simp] theorem writePT_result : (s.writePT i P).result = s.result := by cases P <;> rfl
@[simp] theorem writePT_cmd : (s.writePT i P).cmd = s.cmd := by cases P <;> rfl
@[simp] theorem writePT_pending : (s.writePT i P).pending = s.pending := by cases P <;> rfl
@[simp] theorem writePT_agenda : (s.writePT i P).agenda = s.agenda := by cases P <;> rfl
@[simp] theorem writePT_response : (s.writePT i P).response = s.response := by cases P <;> rfl

/-- A point write leaves every register that is no coordinate of the point. -/
theorem writePT_readW_ne {r : RegIndex} (hx : r ≠ xReg i) (hy : r ≠ yReg i) :
    (s.writePT i P).readW r = s.readW r := by
  cases P <;> simp [writePT, readW_writeW_ne _ hx, readW_writeW_ne _ hy]

/-- A point write leaves every other flag. -/
theorem writePT_readInf_ne {k : Index3} (h : k ≠ i) : (s.writePT i P).readInf k = s.readInf k := by
  cases P <;> simp [writePT, readInf_writeInf_ne _ h]

end Sys2Proof.Machine
end

