-- ==== Sys2Proof/Laws/Bus.lean ====
section
/-! SUPPORT. The register window: which register each named offset is (20_memory.md R33, R40), and the laws of the
32-bit slices of a data register. -/

namespace Sys2Proof.Machine

/-! ### Offsets -/

@[simp] theorem decodeOffset_id : decodeOffset offID = .id := by decide
@[simp] theorem decodeOffset_ctrl : decodeOffset offCTRL = .ctrl := by decide
@[simp] theorem decodeOffset_status : decodeOffset offSTATUS = .status := by decide
@[simp] theorem decodeOffset_cmd : decodeOffset offCMD = .cmd := by decide
@[simp] theorem decodeOffset_inf : decodeOffset offINF = .inf := by decide
@[simp] theorem aligned_id : aligned offID = true := by decide
@[simp] theorem aligned_ctrl : aligned offCTRL = true := by decide
@[simp] theorem aligned_status : aligned offSTATUS = true := by decide
@[simp] theorem aligned_cmd : aligned offCMD = true := by decide
@[simp] theorem aligned_inf : aligned offINF = true := by decide

/-- Offset 0x100 + 32·r + 4·j is word j of W[r] (20_memory.md R40). -/
@[simp] theorem decodeOffset_wordOffset (r : RegIndex) (j : Index3) : decodeOffset (wordOffset r j) = .word r j := by
  revert r j; decide +kernel

@[simp] theorem aligned_wordOffset (r : RegIndex) (j : Index3) : aligned (wordOffset r j) = true := by
  revert r j; decide +kernel

/-- An offset is aligned exactly when it is a multiple of 4 (20_memory.md R32). -/
theorem aligned_iff (off : Offset) : aligned off = true ↔ off.toNat % 4 = 0 := by
  rw [aligned, beq_iff_eq, ← BitVec.toNat_inj]
  simp [BitVec.extractLsb'_toNat]

/-! ### Slices of a 256-bit value -/

theorem sliceLow_le (j : Index3) : sliceLow j ≤ 224 := Nat.sub_le _ _

/-- A bit of a word of a 256-bit value. -/
theorem getSlice_getLsbD (x : Word256) (j : Index3) (k : Nat) (hk : k < 32) :
    (getSlice x j).getLsbD k = x.getLsbD (sliceLow j + k) := by
  simp [getSlice, hk]

/-- A bit of a 256-bit value after one of its words is replaced. -/
theorem setSlice_getLsbD (x : Word256) (j : Index3) (v : Word32) (k : Nat) (hk : k < 256) :
    (setSlice x j v).getLsbD k =
      if sliceLow j ≤ k ∧ k < sliceLow j + 32 then v.getLsbD (k - sliceLow j) else x.getLsbD k := by
  have ones : ∀ i, (0xFFFFFFFF#32).getLsbD i = decide (i < 32) := by
    intro i
    by_cases h : i < 32
    · have : 0xFFFFFFFF#32 = BitVec.allOnes 32 := by decide
      rw [this, BitVec.getLsbD_allOnes]
    · simp [h, BitVec.getLsbD_of_ge _ _ (Nat.le_of_not_lt h)]
  have big : ∀ i, 32 ≤ i → v.getLsbD i = false := fun i hi => BitVec.getLsbD_of_ge _ _ hi
  simp only [setSlice, BitVec.getLsbD_or, BitVec.getLsbD_and, BitVec.getLsbD_not, BitVec.getLsbD_shiftLeft,
    BitVec.truncate_eq_setWidth, BitVec.getLsbD_setWidth, hk, ones]
  have h256 : k - sliceLow j < 256 := by omega
  by_cases h1 : k < sliceLow j
  · have : ¬ sliceLow j ≤ k := by omega
    simp [h1, this]
  · by_cases h2 : k < sliceLow j + 32
    · have e : k - sliceLow j < 32 := by omega
      simp [h1, h2, h256, e]
    · have e : ¬ k - sliceLow j < 32 := by omega
      simp [h1, h2, h256, e, big _ (Nat.le_of_not_lt e)]

/-- A replaced word reads back. -/
@[simp] theorem getSlice_setSlice_self (x : Word256) (j : Index3) (v : Word32) :
    getSlice (setSlice x j v) j = v := by
  have := sliceLow_le j
  apply BitVec.eq_of_getLsbD_eq
  intro k hk
  rw [getSlice_getLsbD _ _ _ hk, setSlice_getLsbD _ _ _ _ (by omega)]
  simp [hk]

/-- Replacing one word leaves the others. -/
theorem getSlice_setSlice_ne (x : Word256) {j k : Index3} (h : k ≠ j) (v : Word32) :
    getSlice (setSlice x j v) k = getSlice x k := by
  have hne : k.toNat ≠ j.toNat := fun e => h (BitVec.eq_of_toNat_eq e)
  have hk := k.isLt
  have hj := j.isLt
  apply BitVec.eq_of_getLsbD_eq
  intro i hi
  have := sliceLow_le k
  rw [getSlice_getLsbD _ _ _ hi, getSlice_getLsbD _ _ _ hi, setSlice_getLsbD _ _ _ _ (by omega), if_neg]
  unfold sliceLow
  omega

/-- A 256-bit value is its eight words (20_memory.md R40). -/
theorem eq_of_getSlice {x y : Word256} (h : ∀ j, getSlice x j = getSlice y j) : x = y := by
  apply BitVec.eq_of_getLsbD_eq
  intro k hk
  have hj : (7 - k / 32) % 2 ^ 3 = 7 - k / 32 := Nat.mod_eq_of_lt (by omega)
  have := congrArg (·.getLsbD (k % 32)) (h (BitVec.ofNat 3 (7 - k / 32)))
  simp only [getSlice_getLsbD _ _ _ (Nat.mod_lt k (by decide : 0 < 32)), sliceLow, BitVec.toNat_ofNat, hj] at this
  have e : 224 - 32 * (7 - k / 32) + k % 32 = k := by omega
  rwa [e] at this

end Sys2Proof.Machine
end

