-- ==== Sys2Proof/Laws/Decode.lean ====
section
/-! SUPPORT. The field layout of 30_encoding.md R54: each field of a laid-out word is the field it was given, and a word
is its fields. -/

namespace Sys2Proof

section
variable (opc : BitVec 5) (d a b : RegIndex) (msel : BitVec 1)

/-- Bit i of a laid-out word (R54). -/
theorem layout_getLsbD (i : Nat) :
    (layout opc d a b msel).getLsbD i =
      if i < 14 then false else if i < 15 then msel.getLsbD (i - 14) else if i < 19 then b.getLsbD (i - 15)
      else if i < 23 then a.getLsbD (i - 19) else if i < 27 then d.getLsbD (i - 23) else opc.getLsbD (i - 27) := by
  change (opc ++ d ++ a ++ b ++ msel ++ 0#14 : BitVec (5 + 4 + 4 + 4 + 1 + 14)).getLsbD i = _
  simp only [BitVec.getLsbD_append, BitVec.getLsbD_zero]
  split_ifs <;> first | rfl | omega

@[simp] theorem fieldOPC_layout : fieldOPC (layout opc d a b msel) = opc := by
  apply BitVec.eq_of_getLsbD_eq
  intro i hi
  rw [fieldOPC, BitVec.getLsbD_extractLsb', layout_getLsbD]
  interval_cases i <;> simp

@[simp] theorem fieldD_layout : fieldD (layout opc d a b msel) = d := by
  apply BitVec.eq_of_getLsbD_eq
  intro i hi
  rw [fieldD, BitVec.getLsbD_extractLsb', layout_getLsbD]
  interval_cases i <;> simp

@[simp] theorem fieldA_layout : fieldA (layout opc d a b msel) = a := by
  apply BitVec.eq_of_getLsbD_eq
  intro i hi
  rw [fieldA, BitVec.getLsbD_extractLsb', layout_getLsbD]
  interval_cases i <;> simp

@[simp] theorem fieldB_layout : fieldB (layout opc d a b msel) = b := by
  apply BitVec.eq_of_getLsbD_eq
  intro i hi
  rw [fieldB, BitVec.getLsbD_extractLsb', layout_getLsbD]
  interval_cases i <;> simp

@[simp] theorem fieldMSEL_layout : fieldMSEL (layout opc d a b msel) = msel := by
  apply BitVec.eq_of_getLsbD_eq
  intro i hi
  rw [fieldMSEL, BitVec.getLsbD_extractLsb', layout_getLsbD]
  interval_cases i
  simp

@[simp] theorem fieldZ_layout : fieldZ (layout opc d a b msel) = 0#14 := by
  apply BitVec.eq_of_getLsbD_eq
  intro i hi
  rw [fieldZ, BitVec.getLsbD_extractLsb', layout_getLsbD]
  interval_cases i <;> simp

end

/-- A word whose Z field is 0 is its other fields, laid out (R54). -/
theorem layout_fields {c : Word32} (hz : fieldZ c = 0#14) :
    layout (fieldOPC c) (fieldD c) (fieldA c) (fieldB c) (fieldMSEL c) = c := by
  apply BitVec.eq_of_getLsbD_eq
  intro i hi
  have low : i < 14 → c.getLsbD i = false := fun hk => by
    have := congrArg (·.getLsbD i) hz
    simpa only [fieldZ, BitVec.getLsbD_extractLsb', hk, BitVec.getLsbD_zero, decide_true, Bool.true_and,
      Nat.zero_add] using this
  rw [layout_getLsbD]
  simp only [fieldOPC, fieldD, fieldA, fieldB, fieldMSEL, BitVec.getLsbD_extractLsb']
  split_ifs with h1 h2 h3 h4 h5
  · exact (low h1).symm
  all_goals
    rw [decide_eq_true (by omega), Bool.true_and]
    congr 1
    omega

@[simp] theorem modulusOf_mselOf (m : Modulus) : modulusOf (mselOf m) = m := by
  cases m <;> rfl

@[simp] theorem mselOf_modulusOf (x : BitVec 1) : mselOf (modulusOf x) = x := by
  revert x; decide

/-- A word tests as a row exactly when it has the row's value at every bit of its mask (R57). -/
theorem fits_iff (r : OpcodeRow) (c : Word32) :
    r.fits c = true ↔ ∀ i < 32, (c.getLsbD i && r.mask.getLsbD i) = r.matchBits.getLsbD i := by
  rw [OpcodeRow.fits, beq_iff_eq]
  constructor
  · intro h i _
    rw [← h, BitVec.getLsbD_and]
  · intro h
    apply BitVec.eq_of_getLsbD_eq
    intro i hi
    rw [BitVec.getLsbD_and, h i hi]

end Sys2Proof
end

