-- ==== Sys2Proof/Laws/Group.lean ====
section
/-! SUPPORT. What the group operations of Machine/Group.lean give, once each: reduced coordinates, and slopes that solve
their equation, for any curve record with the properties of 00_scope.md R7. -/

namespace Sys2Proof.Machine

variable {C : Curve}

/-- In ZMod p a solved inverse is an inverse. -/
theorem mul_invMod_zmod {m x : Nat} (hp : Nat.Prime m) (hlt : m < 2 ^ 256) (hx : x % m ≠ 0) :
    (x : ZMod m) * (invMod m x : Nat) = 1 := by
  have h := (invMod_prime hp hlt hx).2.2
  have : ((x * invMod m x : Nat) : ZMod m) = ((1 : Nat) : ZMod m) :=
    (ZMod.natCast_eq_natCast_iff _ _ _).2 (by rw [Nat.ModEq, h, Nat.mod_eq_of_lt hp.one_lt])
  simpa using this

/-- A finite result of a line is reduced. -/
theorem chord_reduced (hC : C.Ok) (l x1 y1 x2 : Nat) : ReducedPoint C (chord C l x1 y1 x2) :=
  ⟨imod_lt _ hC.p_prime.pos, imod_lt _ hC.p_prime.pos⟩

theorem pdbl_reduced (hC : C.Ok) (P : Point) : ReducedPoint C (pdbl C P) := by
  cases P with
  | infinity => trivial
  | finite x y =>
    rw [pdbl]
    split
    · trivial
    · exact chord_reduced hC _ _ _ _

theorem padd_reduced (hC : C.Ok) {P Q : Point} (hP : ReducedPoint C P) (hQ : ReducedPoint C Q) :
    ReducedPoint C (padd C P Q) := by
  cases P with
  | infinity => cases Q <;> exact hQ
  | finite x1 y1 =>
    cases Q with
    | infinity => exact hP
    | finite x2 y2 =>
      rw [padd]
      split
      · exact pdbl_reduced hC _
      · split
        · trivial
        · exact chord_reduced hC _ _ _ _

/-- The denominator of a chord is not 0 modulo p (41_point_arith.md R80). -/
theorem chordDenominator_ne_zero {m x1 x2 : Nat} (h1 : x1 < m) (h2 : x2 < m) (h : x1 ≠ x2) :
    imod ((x2 : Int) - x1) m % m ≠ 0 := by
  rw [Nat.mod_eq_of_lt (imod_lt _ (by omega))]
  intro h0
  have := imod_cast ((x2 : Int) - x1) (show 0 < m by omega)
  rw [h0] at this
  obtain ⟨k, hk⟩ := Int.dvd_of_emod_eq_zero this.symm
  have hk0 : k = 0 := by
    by_contra hne
    rcases Int.lt_or_gt_of_ne hne with hlt | hgt <;> nlinarith
  rw [hk0] at hk
  omega

/-- The denominator of a tangent is not 0 modulo p (41_point_arith.md R80). -/
theorem tangentDenominator_ne_zero (hC : C.Ok) {y : Nat} (hy : y < C.p) (h : y ≠ 0) : 2 * y % C.p % C.p ≠ 0 := by
  rw [Nat.mod_mod]
  intro h0
  have hdvd := Nat.dvd_of_mod_eq_zero h0
  rcases (Nat.Prime.dvd_mul hC.p_prime).1 hdvd with h2 | h2
  · have := Nat.le_of_dvd (by omega) h2
    have := hC.p_gt
    omega
  · have := Nat.le_of_dvd (by omega) h2
    omega

/-- The slope of a chord, in ZMod p: (x2 − x1)·λ = y2 − y1 (41_point_arith.md R78). -/
theorem chordSlope_zmod (hC : C.Ok) {x1 y1 x2 y2 : Nat} (h1 : x1 < C.p) (h2 : x2 < C.p) (h : x1 ≠ x2) :
    ((x2 : ZMod C.p) - x1) * (chordSlope C x1 y1 x2 y2 : Nat) = (y2 : ZMod C.p) - y1 := by
  have hinv := mul_invMod_zmod hC.p_prime hC.p_lt (chordDenominator_ne_zero h1 h2 h)
  have hp := hC.p_prime.pos
  rw [imod_zmod _ hp] at hinv
  rw [chordSlope, ZMod.natCast_mod, Nat.cast_mul, imod_zmod _ hp]
  push_cast at hinv ⊢
  linear_combination ((y2 : ZMod C.p) - y1) * hinv

/-- The slope of a tangent, in ZMod p: 2·y·λ = 3·x² + a (41_point_arith.md R79). -/
theorem tangentSlope_zmod (hC : C.Ok) {x y : Nat} (hy : y < C.p) (h : y ≠ 0) :
    (2 * y : ZMod C.p) * (tangentSlope C x y : Nat) = 3 * x * x + C.a := by
  have hinv := mul_invMod_zmod hC.p_prime hC.p_lt (tangentDenominator_ne_zero hC hy h)
  rw [ZMod.natCast_mod] at hinv
  rw [tangentSlope, ZMod.natCast_mod, Nat.cast_mul, ZMod.natCast_mod]
  push_cast at hinv ⊢
  linear_combination (3 * (x : ZMod C.p) * x + C.a) * hinv

/-- Two numbers below m that agree in ZMod m are equal. -/
theorem eq_of_zmod {m x y : Nat} (hx : x < m) (hy : y < m) (h : (x : ZMod m) = y) : x = y := by
  have := (ZMod.natCast_eq_natCast_iff _ _ _).1 h
  rwa [Nat.ModEq, Nat.mod_eq_of_lt hx, Nat.mod_eq_of_lt hy] at this

theorem chordSlope_lt (hC : C.Ok) (x1 y1 x2 y2 : Nat) : chordSlope C x1 y1 x2 y2 < C.p :=
  Nat.mod_lt _ hC.p_prime.pos

theorem tangentSlope_lt (hC : C.Ok) (x y : Nat) : tangentSlope C x y < C.p :=
  Nat.mod_lt _ hC.p_prime.pos

/-- The identity shortcut and `padd` give the same accumulator (42_scalar_mult.md R84). -/
theorem pmulAcc_eq (C : Curve) (bit : Bool) (acc Q0 : Point) :
    pmulAcc C bit acc Q0 = if bit then padd C acc Q0 else acc := by
  cases bit <;> cases acc <;> cases Q0 <;> rfl

end Sys2Proof.Machine
end

