-- ==== Sys2Proof/Laws/Ops.lean ====
section
/-! SUPPORT. What each shared operation can do, once: the commits of a command, the engine's turn, a host transaction,
a step. Provers cite these instead of unfolding the operations. -/

namespace Sys2Proof.Machine

open State

/-! ### The end of a command -/

/-- A completion with no register write (`raise`) leaves the registers. -/
theorem finish_completed (s : State) (k : ResultCode) : Completed s (s.finish k) k := by
  constructor <;> rfl

theorem finish_sameRegs (s : State) (k : ResultCode) : SameRegs s (s.finish k) := ⟨fun _ => rfl, rfl⟩

/-- `commitW`: one register write and the code OK. -/
theorem commitW_spec (s : State) (d : RegIndex) {v : Nat} (hv : v < 2 ^ 256) :
    ∃ t, commitW s d v = .next t ∧ (t.readW d).toNat = v ∧ OnlyW s t d ∧ Completed s t .ok :=
  ⟨_, rfl, by simp [toNat_ofNat_of_lt hv], ⟨fun r hr => by simp [readW_writeW_ne _ hr], rfl⟩, by constructor <;> rfl⟩

/-- A written point is held as 41_point_arith.md R77 says, whatever code ends the command, on any curve. -/
theorem writePT_holds_of {C : Curve} (hp : C.p < 2 ^ 256) (s : State) (d : Index3) (k : ResultCode) {P : Point}
    (hP : ReducedPoint C P) : HoldsPoint ((s.writePT d P).finish k) d P := by
  cases P with
  | infinity =>
    simp [HoldsPoint, writePT, readW_writeW_ne _ (xReg_ne_yReg d d)]
  | finite x y =>
    have hx : x < 2 ^ 256 := lt_trans hP.1 hp
    have hy : y < 2 ^ 256 := lt_trans hP.2 hp
    refine ⟨?_, ?_, ?_⟩
    · simp only [finish_readW, writePT, writeInf_readW, readW_writeW_ne _ (xReg_ne_yReg d d), readW_writeW_self,
        toNat_ofNat_of_lt hx]
    · simp only [finish_readW, writePT, writeInf_readW, readW_writeW_self, toNat_ofNat_of_lt hy]
    · simp [writePT]

theorem writePT_holds (s : State) (d : Index3) (k : ResultCode) {P : Point} (hP : ReducedPoint Config.curve P) :
    HoldsPoint ((s.writePT d P).finish k) d P :=
  writePT_holds_of (modulus_lt .p) s d k hP

/-- A written point leaves everything but its two registers and its flag. -/
theorem writePT_onlyPT (s : State) (d : Index3) (k : ResultCode) (P : Point) :
    OnlyPT s ((s.writePT d P).finish k) d :=
  ⟨fun r hx hy => by simp [writePT_readW_ne _ _ _ hx hy], fun i hi => by simp [writePT_readInf_ne _ _ _ hi]⟩

theorem writePT_completed (s : State) (d : Index3) (k : ResultCode) (P : Point) :
    Completed s ((s.writePT d P).finish k) k := by
  constructor <;> simp

/-- `commitPT`: one point write and the code of the point. -/
theorem commitPT_spec_of {C : Curve} (hp : C.p < 2 ^ 256) (s : State) (d : Index3) {P : Point}
    (hP : ReducedPoint C P) :
    ∃ t, commitPT s d P = .next t ∧ HoldsPoint t d P ∧ OnlyPT s t d ∧ Completed s t (pointCode P) :=
  ⟨_, rfl, writePT_holds_of hp s d _ hP, writePT_onlyPT s d _ P, writePT_completed s d _ P⟩

theorem commitPT_spec (s : State) (d : Index3) {P : Point} (hP : ReducedPoint Config.curve P) :
    ∃ t, commitPT s d P = .next t ∧ HoldsPoint t d P ∧ OnlyPT s t d ∧ Completed s t (pointCode P) :=
  commitPT_spec_of (modulus_lt .p) s d hP

/-- A point read by a command has reduced coordinates (41_point_arith.md R76), on any curve. -/
theorem readPT_reduced_of {C : Curve} (hp : 0 < C.p) (s : State) (i : Index3) : ReducedPoint C (s.readPT i C) := by
  unfold readPT
  split
  · trivial
  · exact ⟨Nat.mod_lt _ hp, Nat.mod_lt _ hp⟩

theorem readPT_reduced (s : State) (i : Index3) : ReducedPoint Config.curve (s.readPT i) :=
  readPT_reduced_of (modulus_prime .p).pos s i

/-- `finishPmul`: a point write with OK or POINT_AT_INFINITY, or no write with INVALID_SCALAR_RESULT. -/
theorem finishPmul_cases (s : State) (d : Index3) (r : PmulResult) :
    (∃ P, r = .ok P ∧ finishPmul s d r = .next ((s.writePT d P).finish .ok)) ∨
    (r = .infinity ∧ finishPmul s d r = .next ((s.writePT d .infinity).finish .pointAtInfinity)) ∨
    (r = .invalid ∧ finishPmul s d r = .next (s.finish .invalidScalarResult)) := by
  cases r with
  | ok P => exact .inl ⟨P, rfl, rfl⟩
  | infinity => exact .inr (.inl ⟨rfl, rfl⟩)
  | invalid => exact .inr (.inr ⟨rfl, rfl⟩)

/-! ### The engine and the host -/

/-- The engine's turn with nothing pending changes nothing. -/
theorem engineTurn_none {s : State} (h : s.pending = none) : engineTurn s = .next s := by
  simp [engineTurn, h]

/-- The engine's turn on a legal word runs its command. -/
theorem engineTurn_command {s : State} {c : Word32} {i : Instr} (h : s.pending = some c) (hd : decode c = .command i) :
    engineTurn s = exec i s := by
  simp [engineTurn, h, completeWord, hd]

/-- The engine's turn on an illegal word completes with ILLEGAL_CMD and writes nothing. -/
theorem engineTurn_illegal {s : State} {c : Word32} {why : IllegalReason} (h : s.pending = some c)
    (hd : decode c = .illegal why) : engineTurn s = .next (s.finish .illegalCmd) := by
  simp [engineTurn, h, completeWord, hd]

/-- A step is the head of the agenda, or the engine's turn when the agenda is empty. -/
theorem step_cons {s : State} {m : Move} {rest : List Move} (h : s.agenda = m :: rest) :
    step s = takeMove m { s with agenda := rest } := by
  simp [step, nextMove, h]

theorem step_nil {s : State} (h : s.agenda = []) : step s = engineTurn s := by
  simp [step, nextMove, h]

/-- Everything an aligned write can do, by the register it addresses (20_memory.md R34 to R41). -/
theorem writeReg_cases (off : Offset) (v : Word32) (s : State) :
    (writeReg off v s = s ∧ (decodeOffset off = .id ∨ decodeOffset off = .reserved)) ∨
    (writeReg off v s = s.resetCore ∧ decodeOffset off = .ctrl ∧ v.getLsbD 1 = true) ∨
    (writeReg off v s = { s with irqEn := v.getLsbD 0 } ∧ decodeOffset off = .ctrl ∧ v.getLsbD 1 = false) ∨
    (writeReg off v s = s.writeStatus v ∧ decodeOffset off = .status) ∨
    (writeReg off v s = s.dropWrite ∧ s.busy = true ∧
      (decodeOffset off = .cmd ∨ decodeOffset off = .inf ∨ ∃ r j, decodeOffset off = .word r j)) ∨
    (writeReg off v s = s.issue v ∧ s.busy = false ∧ decodeOffset off = .cmd) ∨
    (writeReg off v s = { s with inf := v.extractLsb' 0 8 } ∧ s.busy = false ∧ decodeOffset off = .inf) ∨
    (∃ r j, writeReg off v s = s.writeW r (setSlice (s.readW r) j v) ∧ s.busy = false ∧
      decodeOffset off = .word r j) := by
  unfold writeReg
  cases hd : decodeOffset off with
  | id => simp
  | reserved => simp
  | status => simp
  | ctrl => cases hv : v.getLsbD 1 <;> simp only [writeCtrl, hv] <;> simp
  | cmd => cases hb : s.busy <;> simp [writeCmd, hb]
  | inf => cases hb : s.busy <;> simp [writeInfReg, hb]
  | word r j =>
    cases hb : s.busy
    · simp only [writeWord, hb]; simp
    · simp [writeWord, hb]

end Sys2Proof.Machine
end

