-- ==== Sys2Proof/Laws/PerInstr.lean ====
section
/-! SUPPORT. Statements made per command: EncodedFields says which opcode the encoder writes (30_encoding.md R57) and
that the Z field is 0 (R54). -/

namespace Sys2Proof.Laws.EncodedFields

/-- The word of a command carries the command's opcode, and its Z field is 0. -/
def Statement (i : Instr) : Prop := fieldOPC (encode i) = opcode i ∧ fieldZ (encode i) = 0#14

theorem modadd (m : Modulus) (d a b : RegIndex) : Statement (.modadd m d a b) := by simp [Statement, encode]
theorem modsub (m : Modulus) (d a b : RegIndex) : Statement (.modsub m d a b) := by simp [Statement, encode]
theorem modmul (m : Modulus) (d a b : RegIndex) : Statement (.modmul m d a b) := by simp [Statement, encode]
theorem montmul (m : Modulus) (d a b : RegIndex) : Statement (.montmul m d a b) := by simp [Statement, encode]
theorem modred (m : Modulus) (d a : RegIndex) : Statement (.modred m d a) := by simp [Statement, encode]
theorem modinv (m : Modulus) (d a : RegIndex) : Statement (.modinv m d a) := by simp [Statement, encode]
theorem ldc (d c : RegIndex) : Statement (.ldc d c) := by simp [Statement, encode]
theorem padd (d a b : RegIndex) : Statement (.padd d a b) := by simp [Statement, encode]
theorem pdbl (d a : RegIndex) : Statement (.pdbl d a) := by simp [Statement, encode]
theorem pmul (d k b : RegIndex) : Statement (.pmul d k b) := by simp [Statement, encode]

end Sys2Proof.Laws.EncodedFields
end

