-- ==== Sys2Proof/Laws/Step.lean ====
section
/-! SUPPORT. What a host transaction and a step can be, once each, and which offset each register of the window is. -/

namespace Sys2Proof.Machine

/-! ### The offset of a decoded register -/

theorem offset_of_ctrl {off : Offset} (h : decodeOffset off = .ctrl) : off = offCTRL := by
  simp only [decodeOffset] at h
  repeat' (split at h <;> try cases h)
  exact BitVec.eq_of_toNat_eq (by assumption)

theorem offset_of_status {off : Offset} (h : decodeOffset off = .status) : off = offSTATUS := by
  simp only [decodeOffset] at h
  repeat' (split at h <;> try cases h)
  exact BitVec.eq_of_toNat_eq (by assumption)

theorem offset_of_cmd {off : Offset} (h : decodeOffset off = .cmd) : off = offCMD := by
  simp only [decodeOffset] at h
  repeat' (split at h <;> try cases h)
  exact BitVec.eq_of_toNat_eq (by assumption)

theorem offset_of_inf {off : Offset} (h : decodeOffset off = .inf) : off = offINF := by
  simp only [decodeOffset] at h
  repeat' (split at h <;> try cases h)
  exact BitVec.eq_of_toNat_eq (by assumption)

theorem offset_range_of_word {off : Offset} {r : RegIndex} {j : Index3} (h : decodeOffset off = .word r j) :
    0x100 ≤ off.toNat ∧ off.toNat < 0x300 := by
  simp only [decodeOffset] at h
  repeat' (split at h <;> try cases h)
  assumption

theorem offset_of_word {off : Offset} {r : RegIndex} {j : Index3} (ha : aligned off = true)
    (h : decodeOffset off = .word r j) : off = wordOffset r j := by
  have hr := offset_range_of_word h
  rw [aligned_iff] at ha
  simp only [decodeOffset] at h
  repeat' (split at h <;> try cases h)
  apply BitVec.eq_of_toNat_eq
  simp [wordOffset]
  omega

/-! ### Host transactions -/

/-- A host transaction answers at the port, and either changes nothing else or is an aligned write
(20_memory.md R31, R32, R44). -/
theorem hostTransaction_cases (t : Transaction) (s : State) :
    ∃ r, hostTransaction t s = { s with response := r } ∨
      ∃ off v, t = .write off v ∧ aligned off = true ∧ hostTransaction t s = { writeReg off v s with response := r } := by
  cases t with
  | read off => exact ⟨_, .inl rfl⟩
  | write off v =>
    simp only [hostTransaction, memWrite]
    split
    · exact ⟨_, .inr ⟨off, v, rfl, by assumption, rfl⟩⟩
    · exact ⟨_, .inl rfl⟩

/-! ### Steps -/

/-- A step is the engine's turn, a hardware reset or a host transaction (00_scope.md R9). -/
theorem step_cases {s t : State} (h : step s = .next t) :
    (s.agenda = [] ∧ engineTurn s = .next t) ∨
    (∃ rest, s.agenda = .engine :: rest ∧ engineTurn { s with agenda := rest } = .next t) ∨
    (∃ rest, s.agenda = .hardReset :: rest ∧ t = ({ s with agenda := rest } : State).resetCore) ∨
    (∃ tr rest, s.agenda = .host tr :: rest ∧ t = hostTransaction tr { s with agenda := rest }) := by
  cases ha : s.agenda with
  | nil => exact .inl ⟨rfl, by rwa [step_nil ha] at h⟩
  | cons m rest =>
    rw [step_cons ha] at h
    cases m with
    | engine => exact .inr (.inl ⟨rest, rfl, h⟩)
    | hardReset => cases h; exact .inr (.inr (.inl ⟨rest, rfl, rfl⟩))
    | host tr => cases h; exact .inr (.inr (.inr ⟨tr, rest, rfl, rfl⟩))

end Sys2Proof.Machine
end

