-- ==== Sys2Proof/Machine/Assembler.lean ====
section
/-! DEFINITION. The assembler's notation (30_encoding.md R60) as a function from one line of text to a command: mnemonics
and register names in either case, a mandatory suffix .P or .N on a field command, operands separated by commas with the
destination first. Text is a list of characters. The machine does not use it (log 16). -/

namespace Sys2Proof.Machine

/-- Text without its blanks, in lower case. R60 says that mnemonics and register names are case-insensitive; that blanks
among the operands are ignored, and that LDC's constant names and the suffixes .P and .N are read in either case too
(`LDC w4, gx`, `modadd.p`), is the model's own DESIGN CHOICE (log 16). -/
def normalText (text : List Char) : List Char := (text.filter (fun c => c != ' ')).map Char.toLower

/-- The text before the first blank, and the text after it. -/
def splitHead : List Char → List Char × List Char
  | [] => ([], [])
  | c :: cs => if c = ' ' then ([], cs) else ((c :: (splitHead cs).1), (splitHead cs).2)

/-- The pieces of a text between its commas. -/
def splitCommas : List Char → List (List Char)
  | [] => [[]]
  | c :: cs =>
    match splitCommas cs with
    | [] => [[c]]
    | piece :: more => if c = ',' then [] :: piece :: more else (c :: piece) :: more

/-- The data register names w0 … w15, in order (R60). -/
def dataNames : List (List Char) := [
  ['w', '0'], ['w', '1'], ['w', '2'], ['w', '3'], ['w', '4'], ['w', '5'], ['w', '6'], ['w', '7'], ['w', '8'],
  ['w', '9'], ['w', '1', '0'], ['w', '1', '1'], ['w', '1', '2'], ['w', '1', '3'], ['w', '1', '4'], ['w', '1', '5']]

/-- The point register names pt0 … pt7, in order (R60). -/
def pointNames : List (List Char) := [
  ['p', 't', '0'], ['p', 't', '1'], ['p', 't', '2'], ['p', 't', '3'],
  ['p', 't', '4'], ['p', 't', '5'], ['p', 't', '6'], ['p', 't', '7']]

/-- The constant names P N A B GX GY R2P R2N, in the order of the ROM (10_state.md R26). -/
def constNames : List (List Char) := [
  ['p'], ['n'], ['a'], ['b'], ['g', 'x'], ['g', 'y'], ['r', '2', 'p'], ['r', '2', 'n']]

/-- The index of a name in a list of names, as a 4-bit field. -/
def nameIndex (names : List (List Char)) (t : List Char) : Option RegIndex :=
  (names.findIdx? (· == t)).map (BitVec.ofNat 4 ·)

/-- A field command without its suffix, by its number in the opcode map (R57). -/
def fieldMnemonics : List (List Char × Nat) := [
  (['m', 'o', 'd', 'a', 'd', 'd'], 1), (['m', 'o', 'd', 's', 'u', 'b'], 2), (['m', 'o', 'd', 'm', 'u', 'l'], 3),
  (['m', 'o', 'n', 't', 'm', 'u', 'l'], 4), (['m', 'o', 'd', 'r', 'e', 'd'], 5), (['m', 'o', 'd', 'i', 'n', 'v'], 6)]

/-- The opcode and the modulus of a mnemonic in lower case; a field command carries .P or .N, no other command does
(R60). -/
def mnemonicOf (t : List Char) : Option (Nat × Option Modulus) :=
  if t = ['l', 'd', 'c'] then some (7, none)
  else if t = ['p', 'a', 'd', 'd'] then some (8, none)
  else if t = ['p', 'd', 'b', 'l'] then some (9, none)
  else if t = ['p', 'm', 'u', 'l'] then some (10, none)
  else
    match fieldMnemonics.find? (fun e => t == e.1 ++ ['.', 'p'] || t == e.1 ++ ['.', 'n']) with
    | some e => some (e.2, some (if t == e.1 ++ ['.', 'p'] then .p else .n))
    | none => none

/-- The command of a mnemonic and its operands (R60). -/
def assembleOperands (opc : Nat) (m : Option Modulus) (ops : List (List Char)) : Option Instr :=
  match opc, m, ops with
  | 1, some m, [d, a, b] => do return .modadd m (← nameIndex dataNames d) (← nameIndex dataNames a) (← nameIndex dataNames b)
  | 2, some m, [d, a, b] => do return .modsub m (← nameIndex dataNames d) (← nameIndex dataNames a) (← nameIndex dataNames b)
  | 3, some m, [d, a, b] => do return .modmul m (← nameIndex dataNames d) (← nameIndex dataNames a) (← nameIndex dataNames b)
  | 4, some m, [d, a, b] => do return .montmul m (← nameIndex dataNames d) (← nameIndex dataNames a) (← nameIndex dataNames b)
  | 5, some m, [d, a] => do return .modred m (← nameIndex dataNames d) (← nameIndex dataNames a)
  | 6, some m, [d, a] => do return .modinv m (← nameIndex dataNames d) (← nameIndex dataNames a)
  | 7, none, [d, c] => do return .ldc (← nameIndex dataNames d) (← nameIndex constNames c)
  | 8, none, [d, a, b] => do return .padd (← nameIndex pointNames d) (← nameIndex pointNames a) (← nameIndex pointNames b)
  | 9, none, [d, a] => do return .pdbl (← nameIndex pointNames d) (← nameIndex pointNames a)
  | 10, none, [d, k, b] => do return .pmul (← nameIndex pointNames d) (← nameIndex dataNames k) (← nameIndex pointNames b)
  | _, _, _ => none

/-- One line of assembler text: the mnemonic, a blank, and the operands (R60). -/
def assemble (text : List Char) : Option Instr :=
  match mnemonicOf (normalText (splitHead text).1) with
  | some (opc, m) => assembleOperands opc m (splitCommas (normalText (splitHead text).2))
  | none => none

end Sys2Proof.Machine
end

