-- ==== Sys2Proof/Tests/Slice0.lean ====
section
/-! SUPPORT. The model's own tests. Every expected value is the spec's: the words and vectors of 95_test_vectors.md
(cited by their ids) and the examples of the rules. Then, for each statement with hypotheses, a concrete state and
operands that meet them together, clause by clause (`witness_<statement>…`). -/

open Sys2Proof Sys2Proof.Machine

namespace Sys2Proof.Tests

-- One theorem at a time: each waiting thread takes a whole stack of its own.
set_option Elab.async false

/-! ### Helpers -/

/-- A state right after reset but for the data registers listed and INF. -/
def given (inf : BitVec 8) (regs : List (RegIndex × Nat)) : State :=
  regs.foldl (fun s e => s.writeW e.1 (BitVec.ofNat 256 e.2)) { State.reset with inf := inf }

/-- The state an outcome leaves, or `s` when it stops. -/
def landing (s : State) : Host.Outcome State Fault Refusal → State
  | .next t => t
  | .fault _ => s
  | .refused _ => s

/-- The state after one step that runs the word `w`. -/
def after (w : Nat) (s : State) : State := landing s (step (s.withFetchWord 32 w))

/-- A data register after the word `w`, and the STATUS word then. -/
def regAfter (w : Nat) (r : RegIndex) (s : State) : Nat × Nat :=
  let t := after w s
  (t.val r, t.statusWord.toNat)

/-- A point register's two coordinates and flag after the word `w`, and RESULT then. -/
def pointAfter (w : Nat) (i : Index3) (s : State) : Nat × Nat × Bool × Nat :=
  let t := after w s
  (t.val (xReg i), t.val (yReg i), t.readInf i, t.result.toNat)

def p : Nat := 0xFFFFFFFF00000001000000000000000000000000FFFFFFFFFFFFFFFFFFFFFFFF
def n : Nat := 0xFFFFFFFF00000000FFFFFFFFFFFFFFFFBCE6FAADA7179E84F3B9CAC2FC632551
def max256 : Nat := 2 ^ 256 - 1
def gx : Nat := 0x6B17D1F2E12C4247F8BCE6E563A440F277037D812DEB33A0F4A13945D898C296
def gy : Nat := 0x4FE342E2FE1A7F9B8EE7EB4A7C0F9E162BCE33576B315ECECBB6406837BF51F5
def g2x : Nat := 0x7CF27B188D034F7E8A52380304B51AC3C08969E277F21B35A60B48FC47669978
def g2y : Nat := 0x07775510DB8ED040293D9AC69F7430DBBA7DADE63CE982299E04B79D227873D1
def g3x : Nat := 0x5ECBE4D1A6330A44C8F7EF951D4BF165E6C6B721EFADA985FB41661BC6E7FD6C
def g3y : Nat := 0x8734640C4998FF7E374B06CE1A64A2ECD82AB036384FB83D9A79B127A27D5032
def g7x : Nat := 0x8E533B6FA0BF7B4625BB30667C01FB607EF9F8B8A80FEF5B300628703187B2A3
def g7y : Nat := 0x73EB1DBDE03318366D069F83A6F5900053C73633CB041B21C55E1A86C1F400B4
def gyNeg : Nat := 0xB01CBD1C01E58065711814B583F061E9D431CCA994CEA1313449BF97C840AE0A

/-- The two source registers of the field vectors. -/
def field (x y : Nat) : State := given 0#8 [(1#4, x), (2#4, y)]

/-- The source points pt0 and pt1 of the point vectors, with their flags. -/
def points (inf : BitVec 8) (x0 y0 x1 y1 : Nat) : State :=
  given inf [(0#4, x0), (1#4, y0), (2#4, x1), (3#4, y1)]

/-- The scalar W8 and the point pt0 of the PMUL vectors; pt1 starts as (0x1234, 0x5678). -/
def scalar (inf : BitVec 8) (k x y : Nat) : State :=
  given inf [(8#4, k), (0#4, x), (1#4, y), (2#4, 0x1234), (3#4, 0x5678)]

/-- A core with `LDC w1, GY` in flight, IRQ_EN = 1, and `ms` to come. -/
def busyState (ms : List Move) : State :=
  { (given 0#8 [(0#4, gx)]).issue 0x38A80000#32 with irqEn := true, agenda := ms }

/-- A core that has completed a command, with IRQ_EN = 1 and BUSY_ERR = 1, and `ms` to come. -/
def doneState (ms : List Move) : State :=
  { given 0#8 [(0#4, gx)] with irqEn := true, done := true, busyErr := true, agenda := ms }

/-! ### Well-formedness: one ill-formed term for each check -/

theorem test_wf_refuses_ldc_index : (Instr.ldc 4#4 8#4).wellFormed = false := by decide
theorem test_wf_refuses_padd_destination : (Instr.padd 8#4 0#4 1#4).wellFormed = false := by decide
theorem test_wf_refuses_padd_first_source : (Instr.padd 2#4 9#4 1#4).wellFormed = false := by decide
theorem test_wf_refuses_padd_second_source : (Instr.padd 2#4 0#4 15#4).wellFormed = false := by decide
theorem test_wf_refuses_pdbl_destination : (Instr.pdbl 8#4 0#4).wellFormed = false := by decide
theorem test_wf_refuses_pdbl_source : (Instr.pdbl 1#4 12#4).wellFormed = false := by decide
theorem test_wf_refuses_pmul_destination : (Instr.pmul 8#4 8#4 0#4).wellFormed = false := by decide
theorem test_wf_refuses_pmul_point : (Instr.pmul 1#4 8#4 8#4).wellFormed = false := by decide
theorem test_wf_admits_pmul_scalar_15 : WellFormed (.pmul 7#4 15#4 7#4) := by decide
theorem test_wf_refuses_modneg_onto_itself : (Pseudo.modneg .p 3#4 3#4).wellFormed = false := by decide

/-! ### Decoding: the words of R55, bit by bit: OPC, D, A, B, MSEL, Z -/

theorem test_decode_modadd : -- E1
    decode (0b00001#5 ++ 0b0011#4 ++ 0b0001#4 ++ 0b0010#4 ++ 0b0#1 ++ 0b00000000000000#14)
      = .command (.modadd .p 3 1 2) := by decide +kernel
theorem test_decode_modsub : -- E2
    decode (0b00010#5 ++ 0b0011#4 ++ 0b0001#4 ++ 0b0010#4 ++ 0b0#1 ++ 0b00000000000000#14)
      = .command (.modsub .p 3 1 2) := by decide +kernel
theorem test_decode_modmul : -- E4
    decode (0b00011#5 ++ 0b0101#4 ++ 0b0011#4 ++ 0b0100#4 ++ 0b1#1 ++ 0b00000000000000#14)
      = .command (.modmul .n 5 3 4) := by decide +kernel
theorem test_decode_montmul : -- E5
    decode (0b00100#5 ++ 0b0011#4 ++ 0b0001#4 ++ 0b0010#4 ++ 0b0#1 ++ 0b00000000000000#14)
      = .command (.montmul .p 3 1 2) := by decide +kernel
theorem test_decode_modred : -- E6
    decode (0b00101#5 ++ 0b0011#4 ++ 0b0001#4 ++ 0b0000#4 ++ 0b1#1 ++ 0b00000000000000#14)
      = .command (.modred .n 3 1) := by decide +kernel
theorem test_decode_modinv : -- E8
    decode (0b00110#5 ++ 0b0011#4 ++ 0b0001#4 ++ 0b0000#4 ++ 0b1#1 ++ 0b00000000000000#14)
      = .command (.modinv .n 3 1) := by decide +kernel
theorem test_decode_ldc : -- E9
    decode (0b00111#5 ++ 0b0100#4 ++ 0b0100#4 ++ 0b0000#4 ++ 0b0#1 ++ 0b00000000000000#14)
      = .command (.ldc 4 4) := by decide +kernel
theorem test_decode_padd : -- E10
    decode (0b01000#5 ++ 0b0010#4 ++ 0b0000#4 ++ 0b0001#4 ++ 0b0#1 ++ 0b00000000000000#14)
      = .command (.padd 2 0 1) := by decide +kernel
theorem test_decode_pdbl : -- E11
    decode (0b01001#5 ++ 0b0001#4 ++ 0b0000#4 ++ 0b0000#4 ++ 0b0#1 ++ 0b00000000000000#14)
      = .command (.pdbl 1 0) := by decide +kernel
theorem test_decode_pmul : -- E12
    decode (0b01010#5 ++ 0b0001#4 ++ 0b1000#4 ++ 0b0000#4 ++ 0b0#1 ++ 0b00000000000000#14)
      = .command (.pmul 1 8 0) := by decide +kernel

/-- The words of E1 to E12 as the spec writes them, from the assembler's notation of R60. -/
theorem test_assembled_words :
    (["MODADD.P w3, w1, w2", "MODSUB.P w3, w1, w2", "MODMUL.P w3, w1, w2", "MODMUL.N w5, w3, w4", "MONTMUL.P w3, w1, w2",
      "MODRED.N w3, w1", "modinv.p W3, W1", "MODINV.N w3, w1", "LDC w4, GX", "PADD pt2, pt0, pt1", "PDBL pt1, pt0",
      "PMUL pt1, w8, pt0"].map fun t => (assemble t.toList).map encode) =
    [some 0x09890000, some 0x11890000, some 0x19890000, some 0x1A9A4000, some 0x21890000, some 0x29884000,
      some 0x31880000, some 0x31884000, some 0x3A200000, some 0x41008000, some 0x48800000, some 0x50C00000] := by
  decide +kernel

/-- The modulus suffix is mandatory on a field command, and a register name must be one of R60's. -/
theorem test_assembler_refuses :
    (["MODADD w3, w1, w2", "PADD.P pt2, pt0, pt1", "PDBL pt8, pt0", "LDC w16, GX"].map fun t => assemble t.toList) =
    [none, none, none, none] := by decide +kernel

/-- X1 to X13: each illegal word with the reason the spec gives. -/
theorem test_illegal_words :
    ([0x00000000, 0x58000000, 0xF8000000, 0x08000001, 0x29808000, 0x38400000, 0x3A004000, 0x44000000, 0x40400000,
      0x40040000, 0x42004000, 0x48808000, 0x50004000].map decode) =
    [.illegal (.reservedOpcode 0), .illegal (.reservedOpcode 11), .illegal (.reservedOpcode 31), .illegal (.nonzero .z),
      .illegal (.nonzero .b), .illegal (.nonzero .aBit3), .illegal (.nonzero .msel), .illegal (.nonzero .dBit3),
      .illegal (.nonzero .aBit3), .illegal (.nonzero .bBit3), .illegal (.nonzero .msel), .illegal (.nonzero .b),
      .illegal (.nonzero .msel)] := by decide +kernel

/-- R59: an illegal word completes with ILLEGAL_CMD (STATUS 0x42) and no register write. -/
theorem test_illegal_word_completes :
    regAfter 0x08000001 3#4 (given 0#8 [(3#4, 7)]) = (7, 0x42) := by decide +kernel

theorem test_decodeTableWord : decodeTableWord 32 0x1A9A4000 = some (.modmul .n 5 3 4) := by decide +kernel
theorem test_decodeTableWord_refuses : decodeTableWord 32 0x58000000 = none := by decide +kernel

/-! ### Field commands -/

theorem test_modadd_wraps_at_p : regAfter 0x09890000 3#4 (field (p - 1) 2) = (1, 2) := by decide +kernel -- FA1
theorem test_modadd_n_of_max : regAfter 0x09894000 3#4 (field max256 max256) = -- FA4
    (0x00000001FFFFFFFE000000000000000086320AA4B1D0C2F6188C6A7A0739B55C, 2) := by decide +kernel
theorem test_modsub_negative : regAfter 0x11890000 3#4 (field 3 5) = (p - 2, 2) := by decide +kernel -- FS1
theorem test_modsub_far_negative : regAfter 0x11890000 3#4 (field 0 max256) = -- FS3
    (0xFFFFFFFE00000002000000000000000000000001FFFFFFFFFFFFFFFFFFFFFFFF, 2) := by decide +kernel
theorem test_modmul_of_max : regAfter 0x19890000 3#4 (field max256 max256) = -- FM2
    (0x00000002FFFFFFFFFFFFFFFFFFFFFFFEFFFFFFFDFFFFFFFF0000000000000002, 2) := by decide +kernel
theorem test_modmul_n : regAfter 0x19894000 3#4 (field (n - 1) (n - 1)) = (1, 2) := by decide +kernel -- FM3
theorem test_montmul_n : regAfter 0x21894000 3#4 (field 1 1) = -- FT4
    (0x60D066334905C1E907F8B6041E607725BADEF3E243566FAFCE1BC8F79C197C79, 2) := by decide +kernel
theorem test_montmul_of_max : regAfter 0x21890000 3#4 (field max256 max256) = -- FT6
    (0x0000000000000001FFFFFFFD00000001FFFFFFFFFFFFFFFE0000000300000000, 2) := by decide +kernel
theorem test_modred_p_mod_n : regAfter 0x29884000 3#4 (field p 0) = -- FR1
    (0x000000000000000000000000000000004319055358E8617B0C46353D039CDAAE, 2) := by decide +kernel
theorem test_modred_of_modulus : regAfter 0x29884000 3#4 (field n 0) = (0, 2) := by decide +kernel -- FR4
theorem test_modinv_of_three : regAfter 0x31880000 3#4 (field 3 0) = -- FI2
    (0xAAAAAAAA00000000AAAAAAAAAAAAAAAAAAAAAAAB555555555555555555555555, 2) := by decide +kernel
/-- FI7: NO_INVERSE (STATUS 0x32) and no write. -/
theorem test_modinv_of_modulus :
    regAfter 0x31880000 3#4 (given 0#8 [(1#4, p), (3#4, 7)]) = (7, 0x32) := by decide +kernel
theorem test_ldc_gx : regAfter 0x3A200000 4#4 State.reset = (gx, 2) := by decide +kernel -- FC4
theorem test_ldc_r2n : regAfter 0x3A380000 4#4 State.reset = -- FC7
    (0x66E12D94F3D956202845B2392B6BEC594699799C49BD6FA683244C95BE79EEA2, 2) := by decide +kernel
/-- The aliasing row of section 2.2. -/
theorem test_modadd_aliased : regAfter 0x08888000 1#4 (field (p - 1) 0) = (p - 2, 2) := by decide +kernel

/-! ### Point commands -/

theorem test_pdbl_base_point : pointAfter 0x49000000 2#3 (points 0 gx gy 0 0) = (g2x, g2y, false, 0) := by -- PD1
  decide +kernel
theorem test_pdbl_unreduced : pointAfter 0x49000000 2#3 (points 0 (1 + p) (2 + p) 0 0) = (p - 2, p - 2, false, 0) := by
  decide +kernel -- PD6
theorem test_padd_general : pointAfter 0x41008000 2#3 (points 0 gx gy g2x g2y) = (g3x, g3y, false, 0) := by -- PA1
  decide +kernel
theorem test_padd_of_negative : pointAfter 0x41008000 2#3 (points 0 gx gy gx gyNeg) = (0, 0, true, 1) := by -- PA3
  decide +kernel
theorem test_pmul_by_seven : pointAfter 0x50C00000 1#3 (scalar 0 7 gx gy) = (g7x, g7y, false, 0) := by -- PM13c
  decide +kernel
/-- PM11: INVALID_SCALAR_RESULT and no write. -/
theorem test_pmul_of_infinity : pointAfter 0x50C00000 1#3 (scalar 1#8 2 gx gy) = (0x1234, 0x5678, false, 2) := by
  decide +kernel
/-- PM1: k = 0 writes Infinity and reports it. -/
theorem test_pmul_by_zero :
    (after 0x50C00000 (scalar 0 0 gx gy)).inf = 2#8 ∧
    pointAfter 0x50C00000 1#3 (scalar 0 0 gx gy) = (0, 0, true, 1) := by decide +kernel

/-! ### Another curve record: y² = x³ + 2x + 2 over the field of 17 elements, of order 19, with G = (5, 1) -/

def small : Curve := ⟨17, 19, 2, 2, 5, 1⟩

/-- By hand from R79: λ = (3·25 + 2)/2 = 9/2 = 13, x3 = 169 − 10 = 6, y3 = 13·(5 − 6) − 1 = 3 mod 17. -/
theorem test_pdbl_on_small_curve :
    (landing State.reset (execOn small (.pdbl 1#4 0#4) (points 0 5 1 0 0))).readPT 1#3 small = .finite 6 3 := by
  decide +kernel
/-- 12 is 1/10 mod 17, and 2 is 1/10 mod 19. -/
theorem test_modinv_on_small_curve :
    ((landing State.reset (execOn small (.modinv .p 3#4 1#4) (field 10 0))).val 3#4,
      (landing State.reset (execOn small (.modinv .n 3#4 1#4) (field 10 0))).val 3#4) = (12, 2) := by decide +kernel

/-! ### Bus, status, reset and host operations -/

theorem test_bus_id : memRead 0x000#12 State.reset = (0xEC250001#32, .ok) := by decide +kernel -- B1
theorem test_bus_misaligned : memRead 0x002#12 State.reset = (0#32, .err) := by decide +kernel -- B2
/-- B3: the eight words of W3 in order, most significant first. -/
theorem test_bus_word_order :
    ((runTransactions ([(0x160#12, 1#32), (0x164#12, 2#32), (0x168#12, 3#32), (0x16C#12, 4#32), (0x170#12, 5#32),
      (0x174#12, 6#32), (0x178#12, 7#32), (0x17C#12, 8#32)].map fun e => .write e.1 e.2) State.reset).val 3#4) =
    0x0000000100000002000000030000000400000005000000060000000700000008 := by decide +kernel
theorem test_bus_reserved : memWrite 0x300#12 5#32 State.reset = (State.reset, .ok) := by decide +kernel -- B4
/-- B5: a write to W1 while busy is dropped and sets BUSY_ERR. -/
theorem test_bus_write_while_busy :
    memWrite 0x13C#12 0xDEADBEEF#32 (busyState []) = ({ busyState [] with busyErr := true }, .ok) := by decide +kernel
/-- B6. -/
theorem test_bus_soft_reset_while_busy : memWrite 0x004#12 3#32 (busyState []) = (State.reset, .ok) := by decide +kernel
/-- B7. -/
theorem test_bus_clear_busy_err : (memWrite 0x008#12 4#32 (doneState [])).1.statusWord = 2#32 := by decide +kernel
theorem test_irq_level : (doneState []).irq = true ∧ (busyState []).irq = false := by decide +kernel -- B8
/-- Program 5, t = 7 to 15: the transactions while LDC w1, GY is in flight, then the completion. -/
theorem test_program_5_busy_phase :
    let t := runTransactions [.write 0x13C#12 0xDEADBEEF#32, .write 0x00C#12 0#32, .read 0x120#12] (busyState [])
    t.statusWord = 5#32 ∧ t.response = some (.readDone 0#32 .ok) ∧ t.cmd = 0x38A80000#32 ∧
    (landing t (step t)).statusWord = 6#32 ∧ (landing t (step t)).val 1#4 = gy := by decide +kernel
/-- Program 2, steps 1 to 3: LDG pt0. -/
theorem test_ldg : (landing State.reset (performAll (Pseudo.ldg 0#3).expand { State.reset with inf := 3#8 })).readPT 0#3 =
    .finite gx gy := by decide +kernel

/-! ### Witnesses of the statements with hypotheses -/

/-- The record of the small curve has the properties of 00_scope.md R7. -/
theorem small_ok : small.Ok where
  p_prime := by norm_num [small]
  n_prime := by norm_num [small]
  p_odd := by decide
  n_odd := by decide
  p_gt := by decide
  p_lt := by decide
  n_lt := by decide
  a_lt := by decide
  b_lt := by decide
  gx_lt := by decide
  gy_lt := by decide

/-- A record with the properties, a source that is 0 mod n, and one that is not. -/
theorem witness_FieldCommandsOnEveryCurve :
    small.Ok ∧ ((field 19 0).readW 1#4).toNat % modulus .n small = 0 ∧
    ((field 18 0).readW 1#4).toNat % modulus .n small ≠ 0 := by
  refine ⟨small_ok, ?_, ?_⟩ <;> decide +kernel
theorem witness_PointCommandsOnEveryCurve : small.Ok := small_ok

theorem witness_EncodeOfDecodeGivesBack : decode 0x1A9A4000#32 = .command (.modmul .n 5 3 4) := by decide +kernel
theorem witness_IllegalWordsAreExactlyR59 :
    decode 0x42004000#32 = .illegal (.nonzero .msel) ∧ State.reset.busy = false ∧
    (State.reset.issue 0x42004000#32).pending = some 0x42004000#32 := by decide +kernel
theorem witness_StepRunsThePendingCommand_empty_agenda :
    (busyState []).pending = some 0x38A80000#32 ∧ decode 0x38A80000#32 = .command (.ldc 1 5) ∧
    (busyState []).agenda = [] := by decide +kernel
theorem witness_StepRunsThePendingCommand_engine_turn :
    (busyState [.engine, .host (.read 0x008#12)]).pending = some 0x38A80000#32 ∧
    (busyState [.engine, .host (.read 0x008#12)]).agenda = .engine :: [.host (.read 0x008#12)] := by decide +kernel
theorem witness_IssuedWordRuns : WellFormed (.pmul 7#4 15#4 7#4) := by decide
theorem witness_StepTakesTheHeadMove_host :
    (busyState [.host (.write 0x008#12 2#32)]).agenda = .host (.write 0x008#12 2#32) :: [] := by decide +kernel
theorem witness_StepTakesTheHeadMove_reset : (busyState [.hardReset]).agenda = .hardReset :: [] := by decide +kernel
theorem witness_StepTakesTheHeadMove_idle_engine :
    (doneState [.engine]).agenda = .engine :: [] ∧ (doneState [.engine]).pending = none := by decide +kernel
theorem witness_IssueSetsTheCommandInFlight : (doneState []).busy = false := by decide +kernel

/-- A completion with each of the codes that write nothing: PMUL by 2 of (5, 0) (PM12b), MODINV of 0 (FI6), and an
illegal word. -/
theorem witness_FailedCommandsWriteNothing :
    (((scalar 0 2 5 0).issue 0x50C00000#32).pending ≠ none ∧
      engineTurn ((scalar 0 2 5 0).issue 0x50C00000#32) =
        .next (landing State.reset (engineTurn ((scalar 0 2 5 0).issue 0x50C00000#32))) ∧
      (landing State.reset (engineTurn ((scalar 0 2 5 0).issue 0x50C00000#32))).result = 2#4) ∧
    (engineTurn ((field 0 0).issue 0x31884000#32) =
        .next (landing State.reset (engineTurn ((field 0 0).issue 0x31884000#32))) ∧
      (landing State.reset (engineTurn ((field 0 0).issue 0x31884000#32))).result = 3#4) ∧
    (engineTurn (State.reset.issue 0#32) = .next (landing State.reset (engineTurn (State.reset.issue 0#32))) ∧
      (landing State.reset (engineTurn (State.reset.issue 0#32))).result = 4#4) := by
  refine ⟨⟨?_, rfl, ?_⟩, ⟨rfl, ?_⟩, ⟨rfl, ?_⟩⟩ <;> decide +kernel

theorem witness_PendingCommandCompletesEventually :
    (busyState [.host (.read 0x008#12), .host (.write 0x00C#12 0#32)]).pending ≠ none ∧
    ∀ m ∈ (busyState [.host (.read 0x008#12), .host (.write 0x00C#12 0#32)]).agenda, m.isReset = false := by
  decide +kernel
theorem witness_HostCannotDisturbARunningCommand :
    (busyState []).busy = true ∧ (busyState []).pending = some 0x38A80000#32 ∧
    ∀ t ∈ [Transaction.write 0x004#12 0#32, .write 0x120#12 7#32, .read 0x010#12], t.isSoftReset = false := by
  decide +kernel

theorem witness_ModinvResult_no_inverse : ((field n 0).readW 1#4).toNat % modulus .n = 0 := by decide +kernel
theorem witness_ModinvResult_inverse : ((field p 0).readW 1#4).toNat % modulus .n ≠ 0 := by decide +kernel
theorem witness_LdcResult_illegal_index : (8#4).getLsbD 3 = true := by decide

theorem witness_PointReadIsAReducedView :
    (points 1#8 gx gy g2x g2y).inf.getLsbD (0#3).toNat = true ∧
    (points 1#8 gx gy g2x g2y).inf.getLsbD (7#3).toNat = false := by decide +kernel
theorem witness_PointWriteReadsBack :
    ReducedPoint Config.curve (.finite (p - 1) 0) ∧ ReducedPoint Config.curve .infinity ∧ (7#3 : Index3) ≠ 0#3 := by
  refine ⟨⟨?_, ?_⟩, trivial, ?_⟩ <;> decide +kernel

theorem witness_PdblResult_infinity : (points 1#8 gx gy 0 0).readPT (lowIndex 0#4) = .infinity := by decide +kernel
theorem witness_PdblResult_vertical : (points 0 5 p 0 0).readPT (lowIndex 0#4) = .finite 5 0 := by decide +kernel
theorem witness_PdblResult_tangent :
    (points 0 gx gy 0 0).readPT (lowIndex 0#4) = .finite gx gy ∧ gy ≠ 0 := by decide +kernel

theorem witness_PaddResult_both_infinity :
    (points 3#8 gx gy g2x g2y).readPT (lowIndex 0#4) = .infinity ∧
    (points 3#8 gx gy g2x g2y).readPT (lowIndex 1#4) = .infinity := by decide +kernel
theorem witness_PaddResult_first_infinity :
    (points 1#8 gx gy g2x g2y).readPT (lowIndex 0#4) = .infinity ∧
    (points 1#8 gx gy g2x g2y).readPT (lowIndex 1#4) = .finite g2x g2y := by decide +kernel
theorem witness_PaddResult_second_infinity :
    (points 2#8 gx gy g2x g2y).readPT (lowIndex 0#4) = .finite gx gy ∧
    (points 2#8 gx gy g2x g2y).readPT (lowIndex 1#4) = .infinity := by decide +kernel
theorem witness_PaddResult_equal :
    (points 0 (1 + p) 2 1 (2 + p)).readPT (lowIndex 0#4) = .finite 1 2 ∧
    (points 0 (1 + p) 2 1 (2 + p)).readPT (lowIndex 1#4) = .finite 1 2 := by decide +kernel
theorem witness_PaddResult_equal_x :
    (points 0 5 0 5 1).readPT (lowIndex 0#4) = .finite 5 0 ∧
    (points 0 5 0 5 1).readPT (lowIndex 1#4) = .finite 5 1 ∧ 0 ≠ 1 := by decide +kernel
theorem witness_PaddResult_general :
    (points 0 gx gy g2x g2y).readPT (lowIndex 0#4) = .finite gx gy ∧
    (points 0 gx gy g2x g2y).readPT (lowIndex 1#4) = .finite g2x g2y ∧ gx ≠ g2x := by decide +kernel
theorem witness_PointAdditionLaws :
    small.Ok ∧ ReducedPoint small (.finite 5 1) ∧ ReducedPoint small (.finite 16 0) := by
  refine ⟨small_ok, ⟨?_, ?_⟩, ⟨?_, ?_⟩⟩ <;> decide
/-- The last conjunct but one: the tangent of slope 0 at (1, 2), the corner case of R82. -/
theorem witness_SlopeInversesExist :
    0 < Config.curve.p ∧ p - 1 < Config.curve.p ∧ (0 : Nat) ≠ p - 1 ∧ p - 1 ≠ 0 ∧
    (3 * 1 * 1 + Config.curve.a) % Config.curve.p = 0 ∧
    exec (.pdbl 2#4 0#4) (points 0 gx gy 0 0) =
      .next (landing State.reset (exec (.pdbl 2#4 0#4) (points 0 gx gy 0 0))) := by
  refine ⟨?_, ?_, ?_, ?_, ?_, rfl⟩ <;> decide +kernel
theorem witness_PointResultsAreReduced :
    exec (.padd 2#4 0#4 1#4) (points 0 gx gy g2x g2y) =
      .next (landing State.reset (exec (.padd 2#4 0#4 1#4) (points 0 gx gy g2x g2y))) ∧
    (landing State.reset (exec (.padd 2#4 0#4 1#4) (points 0 gx gy g2x g2y))).result = 0#4 := by
  refine ⟨rfl, ?_⟩; decide +kernel

/-- k = 3 and P = (5, 0): the doubling 2·P is Infinity. -/
theorem witness_PmulIsTheSumOfSelectedDoublings_invalid :
    1 < Nat.size ((scalar 0 3 5 0).readW 8#4).toNat ∧
    (pdbl Config.curve)^[1] ((scalar 0 3 5 0).readPT (lowIndex 0#4)) = .infinity := by decide +kernel
/-- k = 3 and P = G. -/
theorem witness_PmulIsTheSumOfSelectedDoublings_sum :
    ∀ i, 1 ≤ i → i < Nat.size ((scalar 0 3 gx gy).readW 8#4).toNat →
      (pdbl Config.curve)^[i] ((scalar 0 3 gx gy).readPT (lowIndex 0#4)) ≠ .infinity := by
  have size : Nat.size ((scalar 0 3 gx gy).readW 8#4).toNat = 2 := by decide +kernel
  intro i h1 h2
  obtain rfl : i = 1 := by omega
  decide +kernel
theorem witness_PmulCornerCases_zero : ((scalar 0 0 gx gy).readW 8#4).toNat = 0 := by decide +kernel
theorem witness_PmulCornerCases_one :
    ((scalar 0 1 5 0).readW 8#4).toNat = 1 ∧ (scalar 0 1 5 0).readPT (lowIndex 0#4) = .finite 5 0 := by decide +kernel
theorem witness_PmulCornerCases_one_infinity :
    ((scalar 1#8 1 gx gy).readW 8#4).toNat = 1 ∧ (scalar 1#8 1 gx gy).readPT (lowIndex 0#4) = .infinity := by
  decide +kernel
theorem witness_PmulCornerCases_invalid :
    2 ≤ ((scalar 1#8 2 gx gy).readW 8#4).toNat ∧ (scalar 1#8 2 gx gy).readPT (lowIndex 0#4) = .infinity ∧
    2 ≤ ((scalar 0 max256 5 0).readW 8#4).toNat ∧ (scalar 0 max256 5 0).readPT (lowIndex 0#4) = .finite 5 0 := by
  decide +kernel
theorem witness_PmulCornerCases_two :
    ((scalar 0 2 gx gy).readW 8#4).toNat = 2 ∧ (scalar 0 2 gx gy).readPT (lowIndex 0#4) = .finite gx gy ∧ gy ≠ 0 := by
  decide +kernel
theorem witness_PmulCornerCases_three :
    ((scalar 0 3 gx gy).readW 8#4).toNat = 3 ∧ (scalar 0 3 gx gy).readPT (lowIndex 0#4) = .finite gx gy ∧ gy ≠ 0 := by
  decide +kernel

theorem witness_MisalignedTransactionsAreErrors :
    (0x001#12).toNat % 4 ≠ 0 ∧ (0xFFF#12).toNat % 4 ≠ 0 ∧ (0x000#12).toNat % 4 = 0 ∧ (0xFFC#12).toNat % 4 = 0 := by
  decide
theorem witness_ReservedOffsetsAndBits :
    ([0x014#12, 0x0FC#12, 0x300#12, 0xFFC#12].all fun off => off.toNat % 4 = 0 ∧
      (0x014 ≤ off.toNat ∧ off.toNat ≤ 0x0FC ∨ 0x300 ≤ off.toNat)) = true ∧ State.reset.busy = false := by decide +kernel
theorem witness_CtrlRegister : (3#32).getLsbD 1 = true ∧ (0xFFFFFFFD#32).getLsbD 1 = false := by decide
/-- An idle and a busy core, for CMD, INF and the window. -/
theorem witness_CmdRegister_InfRegister_WindowSlices :
    (doneState []).busy = false ∧ (busyState []).busy = true ∧
    (15#4 : RegIndex) ≠ 0#4 ∧ 31 < 224 - 32 * (0#3 : Index3).toNat ∧ 256 - 32 * (7#3 : Index3).toNat ≤ 32 := by
  decide +kernel
theorem witness_WritesWhileBusyAreDropped :
    (busyState []).busy = true ∧
    ([0x00C#12, 0x010#12, 0x100#12, 0x2FC#12].all fun off => off.toNat % 4 = 0 ∧
      (off.toNat = 0x00C ∨ off.toNat = 0x010 ∨ 0x100 ≤ off.toNat ∧ off.toNat < 0x300)) = true ∧
    ([0x000#12, 0x008#12, 0x014#12, 0x0FC#12, 0x300#12].all fun off => off.toNat % 4 = 0 ∧
      ¬ (off.toNat = 0x00C ∨ off.toNat = 0x010 ∨ 0x100 ≤ off.toNat ∧ off.toNat < 0x300)) = true := by decide +kernel
theorem witness_ReadsWhileBusyGiveOldValues :
    (doneState []).busy = false ∧
    (∀ t ∈ [Transaction.write 0x120#12 7#32, .read 0x008#12], t.isSoftReset = false) ∧
    ([0x010#12, 0x100#12, 0x2FC#12].all fun off =>
      off.toNat = 0x010 ∨ 0x100 ≤ off.toNat ∧ off.toNat < 0x300) = true := by decide +kernel
theorem witness_WrThenRdReturnsTheValue : (doneState []).busy = false := by decide +kernel

theorem busyState_inv (ms : List Move) : (busyState ms).Inv where
  busy_iff := rfl
  done_idle := by intro h; cases h
  result_le := (by decide : (0#4).toNat ≤ 4)
  cmd_pending := by intro c h; exact Option.some.inj h

theorem doneState_inv (ms : List Move) : (doneState ms).Inv where
  busy_iff := rfl
  done_idle := by intro; rfl
  result_le := (by decide : (0#4).toNat ≤ 4)
  cmd_pending := by intro c h; cases h

theorem witness_StepKeepsTheInvariant :
    (busyState []).Inv ∧ step (busyState []) = .next (landing State.reset (step (busyState []))) :=
  ⟨busyState_inv [], rfl⟩
theorem witness_ResetValues :
    (busyState [.hardReset]).agenda = .hardReset :: [] ∧ (0x00000003#32).getLsbD 1 = true := by decide +kernel
theorem witness_SoftResetDiscardsTheCommand : (0x00000002#32).getLsbD 1 = true ∧ (busyState []).busy = true := by
  decide +kernel

/-- One step of `s`, as what its flags become. -/
def flagsAfter (s : State) : Bool × Bool × Bool × Bool × BitVec 4 :=
  let t := landing s (step s)
  (t.busy, t.done, t.busyErr, t.irq, t.result)

/-- BUSY rises and DONE falls (issue); BUSY falls and DONE rises (completion, here an illegal word, so RESULT changes
too); BUSY_ERR rises (dropped write) and falls (W1C); DONE falls (W1C). Every start meets the invariant. -/
theorem witness_StatusFlagsChangeOnlyByTheirEvents :
    (doneState [.host (.write 0x00C#12 1#32)]).Inv ∧ (busyState [.host (.write 0x100#12 1#32)]).Inv ∧
    flagsAfter (doneState [.host (.write 0x00C#12 1#32)]) = (true, false, true, false, 0#4) ∧
    flagsAfter (busyState []) = (false, true, false, true, 0#4) ∧
    flagsAfter (State.reset.issue 0#32) = (false, true, false, false, 4#4) ∧
    flagsAfter (busyState [.host (.write 0x100#12 1#32)]) = (true, false, true, false, 0#4) ∧
    flagsAfter (doneState [.host (.write 0x008#12 4#32)]) = (false, true, false, true, 0#4) ∧
    flagsAfter (doneState [.host (.write 0x008#12 2#32)]) = (false, false, true, false, 0#4) ∧
    flagsAfter (busyState [.hardReset]) = (false, false, false, false, 0#4) := by
  refine ⟨doneState_inv _, busyState_inv _, ?_, ?_, ?_, ?_, ?_, ?_, ?_⟩ <;> decide +kernel
/-- IRQ_EN and CMD change: by a write to CTRL, an issue, and a reset. -/
theorem witness_ControlAndCmdChangeOnlyByTheHost :
    (landing State.reset (step (doneState [.host (.write 0x004#12 0#32)]))).irqEn ≠
      (doneState [.host (.write 0x004#12 0#32)]).irqEn ∧
    (landing State.reset (step (doneState [.host (.write 0x00C#12 1#32)]))).cmd ≠
      (doneState [.host (.write 0x00C#12 1#32)]).cmd ∧
    (landing State.reset (step (busyState [.host (.write 0x004#12 2#32)]))).cmd ≠
      (busyState [.host (.write 0x004#12 2#32)]).cmd := by decide +kernel
/-- A data register and INF change: by a completion, by a write of their own place, and by a reset. -/
theorem witness_RegistersChangeOnlyByTheirWriters :
    (landing State.reset (step (busyState []))).readW 1#4 ≠ (busyState []).readW 1#4 ∧
    (landing State.reset (step (doneState [.host (.write 0x2FC#12 9#32)]))).readW 15#4 ≠
      (doneState [.host (.write 0x2FC#12 9#32)]).readW 15#4 ∧
    (landing State.reset (step (doneState [.host (.write 0x010#12 0x80#32)]))).inf ≠
      (doneState [.host (.write 0x010#12 0x80#32)]).inf ∧
    (landing State.reset (step (doneState [.hardReset]))).readW 0#4 ≠ (doneState [.hardReset]).readW 0#4 := by
  decide +kernel
/-- `irq` rises by a completion and by enabling, and falls by the acknowledgement, by an issue, by masking and by a
reset. -/
theorem witness_InterruptRisesAndFallsOnlyByItsEvents :
    (busyState []).irq = false ∧ (landing State.reset (step (busyState []))).irq = true ∧
    ({ doneState [.host (.write 0x004#12 1#32)] with irqEn := false } : State).irq = false ∧
    (landing State.reset (step { doneState [.host (.write 0x004#12 1#32)] with irqEn := false })).irq = true ∧
    (doneState [.host (.write 0x008#12 2#32)]).irq = true ∧
    (landing State.reset (step (doneState [.host (.write 0x008#12 2#32)]))).irq = false ∧
    (landing State.reset (step (doneState [.host (.write 0x00C#12 1#32)]))).irq = false ∧
    (landing State.reset (step (doneState [.host (.write 0x004#12 0#32)]))).irq = false ∧
    (landing State.reset (step (doneState [.hardReset]))).irq = false := by decide +kernel
theorem witness_SetinfAndClrinfChangeOneFlag : (doneState []).busy = false ∧ (7#3 : Index3) ≠ 0#3 := by decide +kernel
theorem witness_PseudoInstructionResults :
    (given 0#8 [(3#4, 2 ^ 512 % p), (0#4, 1)]).busy = false ∧
    (Pseudo.modneg .p 7#4 1#4).wellFormed = true ∧
    ((given 0#8 [(3#4, 2 ^ 512 % p), (0#4, 1)]).readW 3#4).toNat = 2 ^ 512 % modulus .p ∧
    ((given 0#8 [(3#4, 2 ^ 512 % p), (0#4, 1)]).readW 0#4).toNat = 1 := by decide +kernel

end Sys2Proof.Tests
end

/-! # Proofs of the scope statements (00_scope.md)

The configuration (R6, R7), the shape of a step (R9), bounded completion (R11), and the commands on every curve record
with the properties of R7. The lemmas about completion, about host transactions and about each command's result hold for
any record and are meant to be used again. -/

namespace Sys2Proof.Machine

/-! ### The default record -/

/-- Settles O1: the two primes are `Laws.p256_p_prime` and `Laws.p256_n_prime`, the rest compares numerals. -/
theorem curveHasTheRequiredProperties : Obligations.CurveHasTheRequiredProperties where
  p_prime := Laws.p256_p_prime
  n_prime := Laws.p256_n_prime
  p_odd := by decide
  n_odd := by decide
  p_gt := by decide
  p_lt := by decide
  n_lt := by decide
  a_lt := by decide
  b_lt := by decide
  gx_lt := by decide
  gy_lt := by decide

/-- Settles O2, by evaluating the three relations on the digits of the record. -/
theorem curveConstantsAreConsistent : Obligations.CurveConstantsAreConsistent := by
  unfold Obligations.CurveConstantsAreConsistent
  decide +kernel

/-- The meaning of a command on the default record is `exec`, arm by arm. -/
theorem execOn_default (i : Instr) (s : State) : execOn Config.curve i s = exec i s := by
  cases i <;> rfl

/-- Settles O57: `stepOn` and `step` are the same engine on equal meanings of the commands. -/
theorem defaultCurveGivesTheMachine : Obligations.DefaultCurveGivesTheMachine := by
  have hexec : execOn Config.curve = exec := funext₂ execOn_default
  exact ⟨execOn_default, fun s => by rw [stepOn, step, hexec]⟩

/-! ### What a step takes -/

/-- Settles O8: in both cases of the agenda the step is the engine's turn. -/
theorem stepRunsThePendingCommand : Obligations.StepRunsThePendingCommand := by
  intro s c i hpending hdecode
  refine ⟨fun hnil => ?_, fun rest hcons => ?_⟩
  · rw [step_nil hnil, engineTurn_command hpending hdecode]
  · rw [step_cons hcons]
    exact engineTurn_command (s := { s with agenda := rest }) hpending hdecode

/-- Settles O10: `step_cons` for each kind of move. -/
theorem stepTakesTheHeadMove : Obligations.StepTakesTheHeadMove := by
  intro s rest
  refine ⟨fun t hhost => step_cons hhost, fun hreset => step_cons hreset, fun hengine hpending => ?_⟩
  rw [step_cons hengine]
  exact engineTurn_none (s := { s with agenda := rest }) hpending

/-! ### Every command completes -/

theorem commitW_completed (s : State) (d : RegIndex) (v : Nat) : ∃ t, commitW s d v = .next t ∧ Completed s t .ok :=
  ⟨_, rfl, by constructor <;> rfl⟩

theorem commitPT_completed (s : State) (d : Index3) (P : Point) :
    ∃ t, commitPT s d P = .next t ∧ Completed s t (pointCode P) :=
  ⟨_, rfl, writePT_completed s d _ P⟩

theorem finishPmul_completed (s : State) (d : Index3) (r : PmulResult) :
    ∃ t code, finishPmul s d r = .next t ∧ Completed s t code := by
  obtain ⟨P, -, h⟩ | ⟨-, h⟩ | ⟨-, h⟩ := finishPmul_cases s d r
  · exact ⟨_, _, h, writePT_completed s d _ P⟩
  · exact ⟨_, _, h, writePT_completed s d _ .infinity⟩
  · exact ⟨_, _, h, finish_completed s _⟩

theorem execModinv_completed (m : Modulus) (d a : RegIndex) (s : State) (C : Curve) :
    ∃ t code, execModinv m d a s C = .next t ∧ Completed s t code := by
  unfold execModinv
  dsimp only
  split
  · exact ⟨_, _, rfl, finish_completed s .noInverse⟩
  · obtain ⟨t, ht, hcomp⟩ := commitW_completed s d (invMod (modulus m C) (s.val a % modulus m C))
    exact ⟨t, _, ht, hcomp⟩

/-- Every command, on any record, operands and state, takes a next state that is a completion (30_encoding.md R64). -/
theorem execOn_completes (C : Curve) (i : Instr) (s : State) :
    ∃ t code, execOn C i s = .next t ∧ Completed s t code := by
  have write (d : RegIndex) (v : Nat) : ∃ t code, commitW s d v = .next t ∧ Completed s t code :=
    let ⟨t, h⟩ := commitW_completed s d v; ⟨t, _, h⟩
  have point (d : Index3) (P : Point) : ∃ t code, commitPT s d P = .next t ∧ Completed s t code :=
    let ⟨t, h⟩ := commitPT_completed s d P; ⟨t, _, h⟩
  cases i with
  | modadd m d a b => exact write d _
  | modsub m d a b => exact write d _
  | modmul m d a b => exact write d _
  | montmul m d a b => exact write d _
  | modred m d a => exact write d _
  | modinv m d a => exact execModinv_completed m d a s C
  | ldc d c => exact write d _
  | padd d a b => exact point (lowIndex d) _
  | pdbl d a => exact point (lowIndex d) _
  | pmul d k b => exact finishPmul_completed s (lowIndex d) _

theorem exec_completes (i : Instr) (s : State) : ∃ t code, exec i s = .next t ∧ Completed s t code :=
  execOn_default i s ▸ execOn_completes Config.curve i s

/-- The engine's turn on a pending word, legal or not, is a completion (30_encoding.md R59, R64). -/
theorem engineTurn_completes {s : State} (h : s.pending ≠ none) :
    ∃ t code, engineTurn s = .next t ∧ Completed s t code := by
  obtain ⟨c, hc⟩ := Option.ne_none_iff_exists'.1 h
  cases hd : decode c with
  | command i => rw [engineTurn_command hc hd]; exact exec_completes i s
  | illegal why => exact ⟨_, _, engineTurn_illegal hc hd, finish_completed s _⟩

/-! ### Host transactions while a command is pending -/

theorem writeReg_agenda (off : Offset) (v : Word32) (s : State) : (writeReg off v s).agenda = s.agenda := by
  obtain ⟨h, -⟩ | ⟨h, -⟩ | ⟨h, -⟩ | ⟨h, -⟩ | ⟨h, -⟩ | ⟨h, -⟩ | ⟨h, -⟩ | ⟨r, j, h, -⟩ := writeReg_cases off v s <;>
    rw [h] <;> rfl

theorem hostTransaction_agenda (t : Transaction) (s : State) : (hostTransaction t s).agenda = s.agenda := by
  obtain ⟨r, h | ⟨off, v, -, -, h⟩⟩ := hostTransaction_cases t s
  · rw [h]
  · rw [h]; exact writeReg_agenda off v s

/-- Only a soft reset discards a pending command (20_memory.md R36); an issue puts another in its place. -/
theorem writeReg_pending_ne_none {off : Offset} {v : Word32} {s : State} (hp : s.pending ≠ none)
    (hreset : (Transaction.write off v).isSoftReset = false) : (writeReg off v s).pending ≠ none := by
  obtain ⟨h, -⟩ | ⟨h, hctrl, hbit⟩ | ⟨h, -⟩ | ⟨h, -⟩ | ⟨h, -⟩ | ⟨h, -⟩ | ⟨h, -⟩ | ⟨r, j, h, -⟩ :=
    writeReg_cases off v s
  case inr.inl =>
    rw [Transaction.isSoftReset, offset_of_ctrl hctrl, hbit] at hreset
    cases hreset
  case inr.inr.inr.inr.inr.inl => rw [h]; simp
  all_goals rw [h]; exact hp

theorem hostTransaction_pending_ne_none {t : Transaction} {s : State} (hp : s.pending ≠ none)
    (hreset : t.isSoftReset = false) : (hostTransaction t s).pending ≠ none := by
  obtain ⟨r, h | ⟨off, v, rfl, -, h⟩⟩ := hostTransaction_cases t s
  · rw [h]; exact hp
  · rw [h]; exact writeReg_pending_ne_none hp hreset

/-! ### Bounded completion -/

theorem run_succ_of_step {s t : State} (h : step s = .next t) (k : Nat) :
    Host.Core.run Sys2Proof.core (k + 1) s = Host.Core.run Sys2Proof.core k t := by
  have hcore : Sys2Proof.core.step s = .next t := h
  simp only [Host.Core.run, hcore]

/-- A run of at most `n` steps from `s` reaches a state with nothing pending, BUSY 0 and DONE 1 (00_scope.md R11). -/
def CompletesWithin (n : Nat) (s : State) : Prop :=
  ∃ k t, k ≤ n ∧ Host.Core.run Sys2Proof.core k s = .next t ∧ t.pending = none ∧ t.busy = false ∧ t.done = true

theorem completesWithin_of_completed {s u t : State} {code : ResultCode} (h : step s = .next t)
    (hcomp : Completed u t code) (n : Nat) : CompletesWithin (n + 1) s :=
  ⟨1, t, by omega, run_succ_of_step h 0, hcomp.pending, hcomp.busy, hcomp.done⟩

theorem completesWithin_succ {s t : State} {n : Nat} (h : step s = .next t) (ht : CompletesWithin n t) :
    CompletesWithin (n + 1) s := by
  obtain ⟨k, u, hk, hrun, hu⟩ := ht
  exact ⟨k + 1, u, by omega, by rw [run_succ_of_step h, hrun], hu⟩

/-- By induction on the agenda: a host's move keeps the command pending, and the engine's move, or the empty agenda,
completes it. -/
theorem completesWithin_of_agenda (moves : List Move) {s : State} (hagenda : s.agenda = moves)
    (hpending : s.pending ≠ none) (hreset : ∀ m ∈ moves, m.isReset = false) :
    CompletesWithin (moves.length + 1) s := by
  induction moves generalizing s with
  | nil =>
    obtain ⟨t, code, ht, hcomp⟩ := engineTurn_completes hpending
    exact completesWithin_of_completed ((step_nil hagenda).trans ht) hcomp 0
  | cons m rest ih =>
    obtain ⟨hm, hrest⟩ := List.forall_mem_cons.1 hreset
    have hstep := step_cons hagenda
    cases m with
    | engine =>
      obtain ⟨t, code, ht, hcomp⟩ := engineTurn_completes (s := { s with agenda := rest }) hpending
      exact completesWithin_of_completed (hstep.trans ht) hcomp _
    | hardReset => cases hm
    | host tr =>
      exact completesWithin_succ hstep
        (ih (hostTransaction_agenda tr _) (hostTransaction_pending_ne_none hpending hm) hrest)

/-- Settles O15, by induction on the agenda. -/
theorem pendingCommandCompletesEventually : Obligations.PendingCommandCompletesEventually :=
  fun s hpending hreset => completesWithin_of_agenda s.agenda rfl hpending hreset

/-! ### The field commands on any record with the properties of R7 -/

section FieldCommands
variable {C : Curve} (hC : C.Ok) (m : Modulus) (d a b : RegIndex) (s : State)
include hC

theorem mod_modulus_lt (x : Nat) : x % modulus m C < 2 ^ 256 :=
  (Nat.mod_lt x (modulus_prime_of hC m).pos).trans (modulus_lt_of hC m)

/-- MODADD (40_field_arith.md R69). -/
theorem execModadd_spec : ∃ t, execModadd m d a b s C = .next t ∧
    (t.readW d).toNat = ((s.readW a).toNat + (s.readW b).toNat) % modulus m C ∧ OnlyW s t d ∧ Completed s t .ok :=
  commitW_spec s d (mod_modulus_lt hC m _)

/-- MODSUB (40_field_arith.md R70). -/
theorem execModsub_spec : ∃ t, execModsub m d a b s C = .next t ∧
    ((t.readW d).toNat : Int) = (((s.readW a).toNat : Int) - (s.readW b).toNat) % (modulus m C : Int) ∧
    OnlyW s t d ∧ Completed s t .ok := by
  have hpos := (modulus_prime_of hC m).pos
  obtain ⟨t, ht, hval, hframe⟩ := commitW_spec s d
    ((imod_lt ((s.val a : Int) - s.val b) hpos).trans (modulus_lt_of hC m))
  exact ⟨t, ht, by rw [hval, imod_cast _ hpos]; rfl, hframe⟩

/-- MODMUL (40_field_arith.md R71). -/
theorem execModmul_spec : ∃ t, execModmul m d a b s C = .next t ∧
    (t.readW d).toNat = (s.readW a).toNat * (s.readW b).toNat % modulus m C ∧ OnlyW s t d ∧ Completed s t .ok :=
  commitW_spec s d (mod_modulus_lt hC m _)

/-- 2^256 is invertible modulo an odd prime below it (40_field_arith.md R72). -/
theorem pow256_mod_ne_zero : 2 ^ 256 % modulus m C ≠ 0 := by
  intro h
  have hdvd : modulus m C ∣ 2 := (modulus_prime_of hC m).dvd_of_dvd_pow (Nat.dvd_of_mod_eq_zero h)
  have hodd := modulus_odd_of hC m
  obtain h1 | h2 := (Nat.dvd_prime Nat.prime_two).1 hdvd
  · exact (modulus_prime_of hC m).one_lt.ne' h1
  · omega

/-- The factor R⁻¹ of MONTMUL is the inverse of 2^256 mod m (00_scope.md R12, 40_field_arith.md R72). -/
theorem montInverse_spec : 1 ≤ invMod (modulus m C) (2 ^ 256 % modulus m C) ∧
    invMod (modulus m C) (2 ^ 256 % modulus m C) ≤ modulus m C - 1 ∧
    2 ^ 256 % modulus m C * invMod (modulus m C) (2 ^ 256 % modulus m C) % modulus m C = 1 :=
  invMod_prime (modulus_prime_of hC m) (modulus_lt_of hC m) (by rw [Nat.mod_mod]; exact pow256_mod_ne_zero hC m)

/-- The Montgomery product times R is the product (40_field_arith.md R72). -/
theorem montMul_mul_pow256 (x y : Nat) :
    montMul (modulus m C) x y * 2 ^ 256 % modulus m C = x * y % modulus m C := by
  obtain ⟨-, -, hinv⟩ := montInverse_spec hC m
  have hone : 2 ^ 256 * invMod (modulus m C) (2 ^ 256 % modulus m C) ≡ 1 [MOD modulus m C] := by
    rw [Nat.ModEq, ← Nat.mod_mul_mod, hinv, Nat.mod_eq_of_lt (modulus_prime_of hC m).one_lt]
  calc montMul (modulus m C) x y * 2 ^ 256 % modulus m C
      = x * y * (2 ^ 256 * invMod (modulus m C) (2 ^ 256 % modulus m C)) % modulus m C := by
        rw [montMul, Nat.mod_mul_mod]; congr 1; ring
    _ = x * y % modulus m C := (hone.mul_left (x * y)).trans (by rw [mul_one])

/-- MONTMUL (40_field_arith.md R72). -/
theorem execMontmul_spec : ∃ t, execMontmul m d a b s C = .next t ∧
    (t.readW d).toNat = montMul (modulus m C) (s.readW a).toNat (s.readW b).toNat ∧
    OnlyW s t d ∧ Completed s t .ok :=
  commitW_spec s d (mod_modulus_lt hC m _)

/-- MODRED (40_field_arith.md R73). -/
theorem execModred_spec : ∃ t, execModred m d a s C = .next t ∧
    (t.readW d).toNat = (s.readW a).toNat % modulus m C ∧ OnlyW s t d ∧ Completed s t .ok :=
  commitW_spec s d (mod_modulus_lt hC m _)

omit hC in
/-- MODINV of a value that is 0 mod m (40_field_arith.md R74). -/
theorem execModinv_noInverse (h : (s.readW a).toNat % modulus m C = 0) :
    ∃ t, execModinv m d a s C = .next t ∧ SameRegs s t ∧ Completed s t .noInverse :=
  ⟨s.finish .noInverse, if_pos h, finish_sameRegs s _, finish_completed s _⟩

/-- MODINV of a value that is not 0 mod m (40_field_arith.md R74). -/
theorem execModinv_inverse (h : (s.readW a).toNat % modulus m C ≠ 0) :
    ∃ t, execModinv m d a s C = .next t ∧ 1 ≤ (t.readW d).toNat ∧ (t.readW d).toNat ≤ modulus m C - 1 ∧
      (s.readW a).toNat % modulus m C * (t.readW d).toNat % modulus m C = 1 ∧ OnlyW s t d ∧ Completed s t .ok := by
  obtain ⟨hge, hle, hone⟩ := invMod_prime (modulus_prime_of hC m) (modulus_lt_of hC m)
    (x := (s.readW a).toNat % modulus m C) (by rwa [Nat.mod_mod])
  have hlt := modulus_lt_of hC m
  obtain ⟨t, ht, hval, hframe⟩ := commitW_spec s d (lt_of_le_of_lt hle (by omega))
  exact ⟨t, (if_neg h).trans ht, by rwa [hval], by rwa [hval], by rwa [hval], hframe⟩

/-- Every constant of the ROM fits a register (10_state.md R26). -/
theorem constROM_lt (i : Index3) : constROM C i < 2 ^ 256 := by
  unfold constROM
  split
  case h_1 => exact hC.p_lt
  case h_2 => exact hC.n_lt
  case h_3 => exact hC.a_lt.trans hC.p_lt
  case h_4 => exact hC.b_lt.trans hC.p_lt
  case h_5 => exact hC.gx_lt
  case h_6 => exact hC.gy_lt
  case h_7 => exact mod_modulus_lt hC .p _
  case h_8 => exact mod_modulus_lt hC .n _

omit hC in
/-- The ROM as the list of its constants (10_state.md R26). -/
theorem constROM_eq_getElem (i : Index3) :
    some (constROM C i) = [C.p, C.n, C.a, C.b, C.gx, C.gy, 2 ^ 512 % C.p, 2 ^ 512 % C.n][i.toNat]? := by
  have hi : i.toNat < 8 := i.isLt
  unfold constROM
  interval_cases i.toNat <;> rfl

omit hC in
theorem lowIndex_toNat (f : RegIndex) : (lowIndex f).toNat = f.toNat % 8 := by
  simp [lowIndex, BitVec.extractLsb'_toNat]

/-- LDC (40_field_arith.md R75). -/
theorem execLdc_spec : ∃ t, execLdc d a s C = .next t ∧
    some (t.readW d).toNat = [C.p, C.n, C.a, C.b, C.gx, C.gy, 2 ^ 512 % C.p, 2 ^ 512 % C.n][a.toNat % 8]? ∧
    OnlyW s t d ∧ Completed s t .ok := by
  obtain ⟨t, ht, hval, hframe⟩ := commitW_spec s d (constROM_lt hC (lowIndex a))
  exact ⟨t, ht, by rw [hval, constROM_eq_getElem, lowIndex_toNat], hframe⟩

end FieldCommands

/-- Settles O58: one lemma per command; MONTMUL's product law is `montMul_mul_pow256`. -/
theorem fieldCommandsOnEveryCurve : Obligations.FieldCommandsOnEveryCurve := by
  intro C hC m d a b s
  have hmont : ∃ t, execMontmul m d a b s C = .next t ∧ (t.readW d).toNat < modulus m C ∧
      (t.readW d).toNat * 2 ^ 256 % modulus m C = (s.readW a).toNat * (s.readW b).toNat % modulus m C ∧
      OnlyW s t d ∧ Completed s t .ok := by
    obtain ⟨t, ht, hval, hframe⟩ := execMontmul_spec hC m d a b s
    exact ⟨t, ht, hval ▸ Nat.mod_lt _ (modulus_prime_of hC m).pos, hval ▸ montMul_mul_pow256 hC m _ _, hframe⟩
  exact ⟨rfl, rfl, execModadd_spec hC m d a b s, execModsub_spec hC m d a b s, execModmul_spec hC m d a b s, hmont,
    execModred_spec hC m d a s, execModinv_noInverse m d a s, execModinv_inverse hC m d a s, execLdc_spec hC d a s⟩

/-! ### The point commands -/

/-- The code of a point result, as the statements write it (41_point_arith.md R81, R82). -/
theorem pointCode_eq_ite (P : Point) : pointCode P = if P = .infinity then .pointAtInfinity else .ok := by
  cases P <;> rfl

/-- The accumulator stays reduced (42_scalar_mult.md R84). -/
theorem pmulAcc_reduced {C : Curve} (hC : C.Ok) (bit : Bool) {acc Q0 : Point} (hacc : ReducedPoint C acc)
    (hQ : ReducedPoint C Q0) : ReducedPoint C (pmulAcc C bit acc Q0) := by
  rw [pmulAcc_eq]
  split
  · exact padd_reduced hC hacc hQ
  · exact hacc

theorem pmulEnd_ok {acc r : Point} (h : pmulEnd acc = .ok r) : acc = r ∧ r ≠ .infinity := by
  cases acc with
  | infinity => cases h
  | finite x y => cases h; exact ⟨rfl, by simp⟩

/-- An OK answer of the loop is a finite reduced point: the accumulator and the running point stay reduced. -/
theorem pmulLoop_ok {C : Curve} (hC : C.Ok) {k l left i : Nat} {acc Q0 r : Point} (hacc : ReducedPoint C acc)
    (hQ : ReducedPoint C Q0) (h : pmulLoop C k l left i acc Q0 = .ok r) : ReducedPoint C r ∧ r ≠ .infinity := by
  induction left generalizing i acc Q0 with
  | zero =>
    obtain ⟨rfl, hfin⟩ := pmulEnd_ok h
    exact ⟨hacc, hfin⟩
  | succ left ih =>
    have hacc' := pmulAcc_reduced hC (k.testBit i) hacc hQ
    have hdbl := pdbl_reduced hC Q0
    rw [pmulLoop] at h
    split at h
    · split at h
      · cases h
      · next x y hxy => exact ih hacc' (hxy ▸ hdbl) h
    · exact ih hacc' hQ h

/-- An OK answer of `pmul` is a finite reduced point (42_scalar_mult.md R84). -/
theorem pmul_ok {C : Curve} (hC : C.Ok) {k : Nat} {P r : Point} (hP : ReducedPoint C P) (h : pmul C k P = .ok r) :
    ReducedPoint C r ∧ r ≠ .infinity :=
  pmulLoop_ok hC (acc := .infinity) trivial hP h

section PointCommands
variable {C : Curve} (hC : C.Ok) (d a b : RegIndex) (s : State)
include hC

theorem padd_readPT_reduced (i j : Index3) : ReducedPoint C (padd C (s.readPT i C) (s.readPT j C)) :=
  padd_reduced hC (readPT_reduced_of hC.p_prime.pos s i) (readPT_reduced_of hC.p_prime.pos s j)

/-- PADD (41_point_arith.md R81). -/
theorem execPadd_spec : ∃ t, execPadd d a b s C = .next t ∧
    HoldsPoint t (lowIndex d) (padd C (s.readPT (lowIndex a) C) (s.readPT (lowIndex b) C)) ∧
    OnlyPT s t (lowIndex d) ∧
    Completed s t (pointCode (padd C (s.readPT (lowIndex a) C) (s.readPT (lowIndex b) C))) :=
  commitPT_spec_of hC.p_lt s _ (padd_readPT_reduced hC s _ _)

/-- PDBL (41_point_arith.md R82). -/
theorem execPdbl_spec : ∃ t, execPdbl d a s C = .next t ∧
    HoldsPoint t (lowIndex d) (pdbl C (s.readPT (lowIndex a) C)) ∧
    OnlyPT s t (lowIndex d) ∧ Completed s t (pointCode (pdbl C (s.readPT (lowIndex a) C))) :=
  commitPT_spec_of hC.p_lt s _ (pdbl_reduced hC _)

/-- PMUL (42_scalar_mult.md R85), by the answer of `pmul`. -/
theorem execPmul_spec : ∃ t, execPmul d a b s C = .next t ∧
    ((∃ r, pmul C (s.readW a).toNat (s.readPT (lowIndex b) C) = .ok r ∧ ReducedPoint C r ∧ r ≠ .infinity ∧
        HoldsPoint t (lowIndex d) r ∧ OnlyPT s t (lowIndex d) ∧ Completed s t .ok) ∨
      (pmul C (s.readW a).toNat (s.readPT (lowIndex b) C) = .infinity ∧
        HoldsPoint t (lowIndex d) .infinity ∧ OnlyPT s t (lowIndex d) ∧ Completed s t .pointAtInfinity) ∨
      (pmul C (s.readW a).toNat (s.readPT (lowIndex b) C) = .invalid ∧
        SameRegs s t ∧ Completed s t .invalidScalarResult)) := by
  have hP := readPT_reduced_of hC.p_prime.pos s (lowIndex b)
  obtain ⟨r, hr, ht⟩ | ⟨hr, ht⟩ | ⟨hr, ht⟩ :=
    finishPmul_cases s (lowIndex d) (pmul C (s.val a) (s.readPT (lowIndex b) C))
  · obtain ⟨hred, hfin⟩ := pmul_ok hC hP hr
    exact ⟨_, ht, .inl ⟨r, hr, hred, hfin, writePT_holds_of hC.p_lt s _ _ hred, writePT_onlyPT s _ _ r,
      writePT_completed s _ _ r⟩⟩
  · exact ⟨_, ht, .inr (.inl ⟨hr, writePT_holds_of hC.p_lt s _ _ trivial, writePT_onlyPT s _ _ _,
      writePT_completed s _ _ _⟩)⟩
  · exact ⟨_, ht, .inr (.inr ⟨hr, finish_sameRegs s _, finish_completed s _⟩)⟩

end PointCommands

/-- Settles O59: one lemma per command. -/
theorem pointCommandsOnEveryCurve : Obligations.PointCommandsOnEveryCurve := by
  intro C hC d a b s
  have hadd := execPadd_spec hC d a b s
  have hdbl := execPdbl_spec hC d a s
  rw [pointCode_eq_ite] at hadd hdbl
  refine ⟨hadd, hdbl, ?_⟩
  obtain ⟨t, ht, ⟨r, hr, hred, -, hend⟩ | ⟨hr, hend⟩ | ⟨hr, hend⟩⟩ := execPmul_spec hC d a b s
  · exact ⟨t, ht, by rw [hr]; exact ⟨hred, hend⟩⟩
  · exact ⟨t, ht, by rw [hr]; exact hend⟩
  · exact ⟨t, ht, by rw [hr]; exact hend⟩

/-- Point register `d` holds a finite point with coordinates below p (41_point_arith.md R77). -/
def HoldsReduced (C : Curve) (t : State) (d : Index3) : Prop :=
  t.readInf d = false ∧ (t.readW (xReg d)).toNat < C.p ∧ (t.readW (yReg d)).toNat < C.p

theorem holdsReduced_of_holdsPoint {C : Curve} {t : State} {d : Index3} {P : Point} (h : HoldsPoint t d P)
    (hP : ReducedPoint C P) (hfin : P ≠ .infinity) : HoldsReduced C t d := by
  cases P with
  | infinity => exact absurd rfl hfin
  | finite x y =>
    obtain ⟨hx, hy, hflag⟩ := h
    obtain ⟨hxp, hyp⟩ := hP
    exact ⟨hflag, hx ▸ hxp, hy ▸ hyp⟩

/-- A point result whose completion has code OK is finite. -/
theorem ne_infinity_of_ok {s t : State} {P : Point} (hcomp : Completed s t (pointCode P)) (hok : t.result = 0#4) :
    P ≠ .infinity := by
  rintro rfl
  exact absurd (hcomp.result.symm.trans hok) (by decide)

/-- Settles O31: an OK completion of each point command holds a finite reduced point. -/
theorem pointResultsAreReduced : Obligations.PointResultsAreReduced := by
  have hC : Config.curve.Ok := curveHasTheRequiredProperties
  intro d a b s t hexec hok
  change HoldsReduced Config.curve t (lowIndex d)
  obtain hadd | hdbl | hmul := hexec
  · obtain ⟨u, hu, hholds, -, hcomp⟩ := execPadd_spec hC d a b s
    cases hadd.symm.trans hu
    exact holdsReduced_of_holdsPoint hholds (padd_readPT_reduced hC s _ _) (ne_infinity_of_ok hcomp hok)
  · obtain ⟨u, hu, hholds, -, hcomp⟩ := execPdbl_spec hC d a s
    cases hdbl.symm.trans hu
    exact holdsReduced_of_holdsPoint hholds (pdbl_reduced hC _) (ne_infinity_of_ok hcomp hok)
  · obtain ⟨u, hu, ⟨r, -, hred, hfin, hholds, -⟩ | ⟨-, -, -, hcomp⟩ | ⟨-, -, hcomp⟩⟩ := execPmul_spec hC d a b s
    all_goals cases hmul.symm.trans hu
    · exact holdsReduced_of_holdsPoint hholds hred hfin
    · exact absurd (hcomp.result.symm.trans hok) (by decide)
    · exact absurd (hcomp.result.symm.trans hok) (by decide)

end Sys2Proof.Machine

/-! # Proofs of the state statements (10_state.md)

The reset values (R29), what one step can do to the core as one inductive relation (`StepEvent`), the invariant (R22,
R24, R25) and the events that change each field, all read off that relation; and that host transactions leave a running
command alone (R25). `StepEvent` and the lemmas about the change of each field are meant to be used again. -/

namespace Sys2Proof.Machine

/-! ### Reset -/

/-- Settles O48: with nothing pending and DONE 0 each clause holds at once. -/
theorem resetMeetsTheInvariant : Obligations.ResetMeetsTheInvariant where
  busy_iff := rfl
  done_idle := nofun
  result_le := Nat.zero_le 4
  cmd_pending := nofun

theorem resetCore_atReset (s : State) : s.resetCore.AtReset where
  w := resetCore_readW s
  inf := rfl
  irqEn := rfl
  busy := rfl
  done := rfl
  busyErr := rfl
  result := rfl
  cmd := rfl
  pending := rfl

/-- A write to CTRL with bit 1 set is a reset, whatever the state (20_memory.md R36, 70_reset_and_hazards.md R101). -/
theorem memWrite_ctrl_softReset (s : State) {v : Word32} (hv : v.getLsbD 1 = true) :
    memWrite offCTRL v s = (s.resetCore, .ok) := by
  rw [memWrite, if_pos aligned_ctrl, writeReg, decodeOffset_ctrl]
  exact congrArg (·, BusResp.ok) (if_pos hv)

theorem isSoftReset_ctrl {v : Word32} (hv : v.getLsbD 1 = true) : (Transaction.write offCTRL v).isSoftReset = true := by
  rw [Transaction.isSoftReset, hv]
  rfl

/-- Settles O49: both resets end in `resetCore`. -/
theorem resetValues : Obligations.ResetValues :=
  ⟨resetCore_atReset State.reset, rfl,
    fun _ _ hreset => ⟨_, step_cons hreset, resetCore_atReset _, rfl, rfl⟩,
    fun s _ hv => ⟨_, memWrite_ctrl_softReset s hv, resetCore_atReset s, rfl⟩⟩

/-! ### What the next step is, by the agenda -/

/-- `s` with the environment's own fields replaced (log 1, log 3): the registers of 10_state.md R16 stay. -/
def State.withEnv (s : State) (agenda : List Move) (response : Option Response) : State :=
  { s with agenda := agenda, response := response }

/-- The next step completes the pending command (30_encoding.md R64). -/
def State.Completes (s : State) : Prop :=
  s.pending ≠ none ∧ (s.agenda = [] ∨ ∃ rest, s.agenda = .engine :: rest)

/-- The next step is a hardware reset or a soft reset (70_reset_and_hazards.md R100, R101). -/
def State.Resets (s : State) : Prop := ∃ m rest, s.agenda = m :: rest ∧ m.isReset = true

/-- The next step is the host's write of `v` to `off`. -/
def State.HostWrites (s : State) (off : Offset) (v : Word32) : Prop := ∃ rest, s.agenda = .host (.write off v) :: rest

/-- The next step issues a command (30_encoding.md R63). -/
def State.Issues (s : State) : Prop := s.busy = false ∧ ∃ v, s.HostWrites offCMD v

/-- The next step writes 1 to bit `k` of STATUS (20_memory.md R37). -/
def State.WritesOne (s : State) (k : Nat) : Prop :=
  ∃ v rest, s.agenda = .host (.write offSTATUS v) :: rest ∧ v.getLsbD k = true

/-- The aligned offsets whose writes a busy core drops: CMD, INF and the W window (20_memory.md R41). -/
def BusyGuarded (off : Offset) : Prop :=
  off.toNat % 4 = 0 ∧ (off.toNat = 0x00C ∨ off.toNat = 0x010 ∨ 0x100 ≤ off.toNat ∧ off.toNat < 0x300)

/-- The next step is a write that the busy core drops (20_memory.md R41). -/
def State.Drops (s : State) : Prop :=
  s.busy = true ∧ ∃ off v rest, s.agenda = .host (.write off v) :: rest ∧ BusyGuarded off

theorem busyGuarded_of_decodeOffset {off : Offset} (ha : aligned off = true)
    (hd : decodeOffset off = .cmd ∨ decodeOffset off = .inf ∨ ∃ r j, decodeOffset off = .word r j) :
    BusyGuarded off := by
  refine ⟨(aligned_iff off).1 ha, ?_⟩
  obtain hcmd | hinf | ⟨r, j, hword⟩ := hd
  · exact .inl (congrArg BitVec.toNat (offset_of_cmd hcmd))
  · exact .inr (.inl (congrArg BitVec.toNat (offset_of_inf hinf)))
  · exact .inr (.inr (offset_range_of_word hword))

/-! ### What one step can do -/

/-- Everything one step from `s` can do to the core, with the head of the agenda that does it (00_scope.md R9). -/
inductive StepEvent (s : State) : State → Prop where
  /-- a read, a write that answers ERR or that the register ignores, an engine's move with nothing pending -/
  | quiet (rest : List Move) (r : Option Response) : StepEvent s (s.withEnv rest r)
  | completion {rest : List Move} {t : State} {code : ResultCode} (hc : s.Completes)
      (h : Completed (s.withEnv rest s.response) t code) : StepEvent s t
  | hardReset {rest : List Move} (ha : s.agenda = .hardReset :: rest) :
      StepEvent s (s.resetCore.withEnv rest s.response)
  | softReset {v : Word32} {rest : List Move} (r : Option Response)
      (ha : s.agenda = .host (.write offCTRL v) :: rest) (hv : v.getLsbD 1 = true) :
      StepEvent s (s.resetCore.withEnv rest r)
  | writeIrqEn {v : Word32} {rest : List Move} (r : Option Response)
      (ha : s.agenda = .host (.write offCTRL v) :: rest) (hv : v.getLsbD 1 = false) :
      StepEvent s (({ s with irqEn := v.getLsbD 0 } : State).withEnv rest r)
  | writeStatus {v : Word32} {rest : List Move} (r : Option Response)
      (ha : s.agenda = .host (.write offSTATUS v) :: rest) : StepEvent s ((s.writeStatus v).withEnv rest r)
  | drop (rest : List Move) (r : Option Response) (hd : s.Drops) : StepEvent s (s.dropWrite.withEnv rest r)
  | issue {v : Word32} {rest : List Move} (r : Option Response) (hb : s.busy = false)
      (ha : s.agenda = .host (.write offCMD v) :: rest) : StepEvent s ((s.issue v).withEnv rest r)
  | writeInf {v : Word32} {rest : List Move} (r : Option Response) (hb : s.busy = false)
      (ha : s.agenda = .host (.write offINF v) :: rest) :
      StepEvent s (({ s with inf := v.extractLsb' 0 8 } : State).withEnv rest r)
  | writeWord {d : RegIndex} {j : Index3} {v : Word32} {rest : List Move} (r : Option Response) (hb : s.busy = false)
      (ha : s.agenda = .host (.write (wordOffset d j) v) :: rest) :
      StepEvent s ((s.writeW d (setSlice (s.readW d) j v)).withEnv rest r)

theorem stepEvent_of_engineTurn {s t : State} {rest : List Move}
    (ha : s.agenda = [] ∨ ∃ rest, s.agenda = .engine :: rest)
    (h : engineTurn (s.withEnv rest s.response) = .next t) : StepEvent s t := by
  by_cases hp : s.pending = none
  · cases (engineTurn_none (s := s.withEnv rest s.response) hp).symm.trans h
    exact .quiet rest s.response
  · obtain ⟨u, code, hu, hcomp⟩ := engineTurn_completes (s := s.withEnv rest s.response) hp
    cases hu.symm.trans h
    exact .completion ⟨hp, ha⟩ hcomp

theorem stepEvent_of_hostWrite {s : State} {off : Offset} {v : Word32} {rest : List Move} (r : Option Response)
    (ha : s.agenda = .host (.write off v) :: rest) (hal : aligned off = true) :
    StepEvent s { writeReg off v (s.withEnv rest s.response) with response := r } := by
  obtain ⟨h, -⟩ | ⟨h, hd, hv⟩ | ⟨h, hd, hv⟩ | ⟨h, hd⟩ | ⟨h, hb, hd⟩ | ⟨h, hb, hd⟩ | ⟨h, hb, hd⟩ | ⟨d, j, h, hb, hd⟩ :=
    writeReg_cases off v (s.withEnv rest s.response) <;> rw [h]
  · exact .quiet rest r
  · exact .softReset r (offset_of_ctrl hd ▸ ha) hv
  · exact .writeIrqEn r (offset_of_ctrl hd ▸ ha) hv
  · exact .writeStatus r (offset_of_status hd ▸ ha)
  · exact .drop rest r ⟨hb, off, v, rest, ha, busyGuarded_of_decodeOffset hal hd⟩
  · exact .issue r hb (offset_of_cmd hd ▸ ha)
  · exact .writeInf r hb (offset_of_inf hd ▸ ha)
  · exact .writeWord r hb (offset_of_word hal hd ▸ ha)

theorem stepEvent_of_step {s t : State} (h : step s = .next t) : StepEvent s t := by
  obtain ⟨hnil, hturn⟩ | ⟨rest, ha, hturn⟩ | ⟨rest, ha, rfl⟩ | ⟨tr, rest, ha, rfl⟩ := step_cases h
  · exact stepEvent_of_engineTurn (rest := s.agenda) (.inl hnil) hturn
  · exact stepEvent_of_engineTurn (.inr ⟨rest, ha⟩) hturn
  · exact .hardReset ha
  · obtain ⟨r, htr | ⟨off, v, rfl, hal, htr⟩⟩ := hostTransaction_cases tr { s with agenda := rest } <;> rw [htr]
    · exact .quiet rest r
    · exact stepEvent_of_hostWrite r ha hal

/-! ### The invariant -/

/-- The invariant speaks of BUSY, DONE, RESULT, CMD and the pending word only, and clearing DONE keeps it. -/
theorem State.Inv.of_agree {s t : State} (hs : s.Inv) (hbusy : t.busy = s.busy) (hdone : t.done = true → s.done = true)
    (hresult : t.result = s.result) (hcmd : t.cmd = s.cmd) (hpending : t.pending = s.pending) : t.Inv where
  busy_iff := by rw [hbusy, hpending, hs.busy_iff]
  done_idle h := hbusy.trans (hs.done_idle (hdone h))
  result_le := hresult ▸ hs.result_le
  cmd_pending c h := hcmd.trans (hs.cmd_pending c (hpending ▸ h))

theorem ResultCode.bits_le (k : ResultCode) : k.bits.toNat ≤ 4 := by cases k <;> decide

/-- A completion establishes the invariant, from any state (30_encoding.md R64). -/
theorem Completed.inv {s t : State} {code : ResultCode} (h : Completed s t code) : t.Inv where
  busy_iff := by rw [h.busy, h.pending]; rfl
  done_idle _ := h.busy
  result_le := h.result ▸ code.bits_le
  cmd_pending c hc := by rw [h.pending] at hc; cases hc

theorem State.AtReset.inv {s : State} (h : s.AtReset) : s.Inv where
  busy_iff := by rw [h.busy, h.pending]; rfl
  done_idle _ := h.busy
  result_le := by rw [h.result]; exact Nat.zero_le 4
  cmd_pending c hc := by rw [h.pending] at hc; cases hc

theorem State.Inv.issue {s : State} (hs : s.Inv) (c : Word32) : (s.issue c).Inv where
  busy_iff := rfl
  done_idle := nofun
  result_le := hs.result_le
  cmd_pending _ h := Option.some.inj h

theorem State.Inv.withEnv {s : State} (hs : s.Inv) (rest : List Move) (r : Option Response) : (s.withEnv rest r).Inv :=
  hs.of_agree rfl id rfl rfl rfl

theorem State.Inv.writeStatus {s : State} (hs : s.Inv) (v : Word32) : (s.writeStatus v).Inv := by
  refine hs.of_agree rfl (fun h => ?_) rfl rfl rfl
  rw [writeStatus_done] at h
  split at h
  · cases h
  · exact h

theorem StepEvent.inv {s t : State} (h : StepEvent s t) (hs : s.Inv) : t.Inv := by
  cases h with
  | completion _ hcomp => exact hcomp.inv
  | hardReset | softReset => exact (resetCore_atReset s).inv.withEnv _ _
  | writeStatus => exact (hs.writeStatus _).withEnv _ _
  | issue => exact (hs.issue _).withEnv _ _
  | quiet | writeIrqEn | drop | writeInf | writeWord => exact hs.of_agree rfl id rfl rfl rfl

/-- Settles O47, event by event: a completion and a reset establish the invariant, an issue sets BUSY with the pending
word in CMD, a write to STATUS can only clear DONE, and no other event touches the fields it speaks of. -/
theorem stepKeepsTheInvariant : Obligations.StepKeepsTheInvariant :=
  fun _ _ hs hstep => (stepEvent_of_step hstep).inv hs

/-! ### Which events change each field -/

/-- A flag that goes from `x` to `y` keeps its value, rises by `rise`, or falls by `fall`. -/
inductive FlagChange (x y : Bool) (rise fall : Prop) : Prop where
  | keep (h : y = x)
  | rise (h : y = true) (cause : rise)
  | fall (h : y = false) (cause : fall)

theorem FlagChange.of_rises {x y : Bool} {rise fall : Prop} (h : FlagChange x y rise fall) (hx : x = false)
    (hy : y = true) : rise := by
  cases h with
  | rise _ cause => exact cause
  | keep h => simp [h, hx] at hy
  | fall h _ => simp [h] at hy

theorem FlagChange.of_falls {x y : Bool} {rise fall : Prop} (h : FlagChange x y rise fall) (hx : x = true)
    (hy : y = false) : fall := by
  cases h with
  | fall _ cause => exact cause
  | keep h => simp [h, hx] at hy
  | rise h _ => simp [h] at hy

/-- A flag written 1 to clear: bit `k` of the word clears it or keeps it (20_memory.md R37). -/
theorem flagChange_of_writeOne {v : Word32} {k : Nat} {x : Bool} {rise fall : Prop}
    (cause : v.getLsbD k = true → fall) : FlagChange x (if v.getLsbD k then false else x) rise fall := by
  split
  case isTrue hv => exact .fall rfl (cause hv)
  case isFalse => exact .keep rfl

theorem resets_of_hardReset {s : State} {rest : List Move} (ha : s.agenda = .hardReset :: rest) : s.Resets :=
  ⟨_, rest, ha, rfl⟩

theorem resets_of_softReset {s : State} {v : Word32} {rest : List Move}
    (ha : s.agenda = .host (.write offCTRL v) :: rest) (hv : v.getLsbD 1 = true) : s.Resets :=
  ⟨_, rest, ha, isSoftReset_ctrl hv⟩

section StepEvents
variable {s t : State} (h : StepEvent s t)
include h

/-- BUSY (10_state.md R22). -/
theorem StepEvent.busy_change : FlagChange s.busy t.busy s.Issues (s.Completes ∨ s.Resets) := by
  cases h with
  | completion hc hcomp => exact .fall hcomp.busy (.inl hc)
  | hardReset ha => exact .fall rfl (.inr (resets_of_hardReset ha))
  | softReset _ ha hv => exact .fall rfl (.inr (resets_of_softReset ha hv))
  | issue _ hb ha => exact .rise rfl ⟨hb, _, _, ha⟩
  | quiet | writeIrqEn | writeStatus | drop | writeInf | writeWord => exact .keep rfl

/-- DONE (10_state.md R22). -/
theorem StepEvent.done_change : FlagChange s.done t.done s.Completes (s.Issues ∨ s.WritesOne 1 ∨ s.Resets) := by
  cases h with
  | completion hc hcomp => exact .rise hcomp.done hc
  | hardReset ha => exact .fall rfl (.inr (.inr (resets_of_hardReset ha)))
  | softReset _ ha hv => exact .fall rfl (.inr (.inr (resets_of_softReset ha hv)))
  | issue _ hb ha => exact .fall rfl (.inl ⟨hb, _, _, ha⟩)
  | writeStatus _ ha => exact flagChange_of_writeOne fun hv => .inr (.inl ⟨_, _, ha, hv⟩)
  | quiet | writeIrqEn | drop | writeInf | writeWord => exact .keep rfl

/-- BUSY_ERR (10_state.md R22). -/
theorem StepEvent.busyErr_change : FlagChange s.busyErr t.busyErr s.Drops (s.WritesOne 2 ∨ s.Resets) := by
  cases h with
  | completion _ hcomp => exact .keep hcomp.busyErr
  | hardReset ha => exact .fall rfl (.inr (resets_of_hardReset ha))
  | softReset _ ha hv => exact .fall rfl (.inr (resets_of_softReset ha hv))
  | drop _ _ hd => exact .rise rfl hd
  | writeStatus _ ha => exact flagChange_of_writeOne fun hv => .inl ⟨_, _, ha, hv⟩
  | quiet | writeIrqEn | issue | writeInf | writeWord => exact .keep rfl

/-- RESULT (10_state.md R22). -/
theorem StepEvent.result_change : t.result = s.result ∨ s.Completes ∨ s.Resets := by
  cases h with
  | completion hc _ => exact .inr (.inl hc)
  | hardReset ha => exact .inr (.inr (resets_of_hardReset ha))
  | softReset _ ha hv => exact .inr (.inr (resets_of_softReset ha hv))
  | quiet | writeIrqEn | writeStatus | drop | issue | writeInf | writeWord => exact .inl rfl

/-- IRQ_EN (10_state.md R23). -/
theorem StepEvent.irqEn_change :
    t.irqEn = s.irqEn ∨ (∃ v, s.HostWrites offCTRL v) ∨ ∃ rest, s.agenda = .hardReset :: rest := by
  cases h with
  | completion _ hcomp => exact .inl hcomp.irqEn
  | hardReset ha => exact .inr (.inr ⟨_, ha⟩)
  | softReset _ ha _ | writeIrqEn _ ha _ => exact .inr (.inl ⟨_, _, ha⟩)
  | quiet | writeStatus | drop | issue | writeInf | writeWord => exact .inl rfl

/-- CMD (10_state.md R24). -/
theorem StepEvent.cmd_change :
    t.cmd = s.cmd ∨ (s.busy = false ∧ s.HostWrites offCMD t.cmd) ∨ (t.cmd = 0#32 ∧ s.Resets) := by
  cases h with
  | completion _ hcomp => exact .inl hcomp.cmd
  | hardReset ha => exact .inr (.inr ⟨rfl, resets_of_hardReset ha⟩)
  | softReset _ ha hv => exact .inr (.inr ⟨rfl, resets_of_softReset ha hv⟩)
  | issue _ hb ha => exact .inr (.inl ⟨hb, _, ha⟩)
  | quiet | writeIrqEn | writeStatus | drop | writeInf | writeWord => exact .inl rfl

/-- A data register (10_state.md R17, 20_memory.md R52). -/
theorem StepEvent.readW_change (r : RegIndex) :
    t.readW r = s.readW r ∨ s.Completes ∨ s.Resets ∨
      (s.busy = false ∧ ∃ j v, s.HostWrites (wordOffset r j) v) := by
  cases h with
  | completion hc _ => exact .inr (.inl hc)
  | hardReset ha => exact .inr (.inr (.inl (resets_of_hardReset ha)))
  | softReset _ ha hv => exact .inr (.inr (.inl (resets_of_softReset ha hv)))
  | @writeWord d _ _ _ _ hb ha =>
    by_cases hr : r = d
    · subst hr; exact .inr (.inr (.inr ⟨hb, _, _, _, ha⟩))
    · exact .inl (readW_writeW_ne s hr _)
  | quiet | writeIrqEn | writeStatus | drop | issue | writeInf => exact .inl rfl

/-- The Infinity flags (10_state.md R19, 20_memory.md R52). -/
theorem StepEvent.inf_change :
    t.inf = s.inf ∨ s.Completes ∨ s.Resets ∨ (s.busy = false ∧ ∃ v, s.HostWrites offINF v) := by
  cases h with
  | completion hc _ => exact .inr (.inl hc)
  | hardReset ha => exact .inr (.inr (.inl (resets_of_hardReset ha)))
  | softReset _ ha hv => exact .inr (.inr (.inl (resets_of_softReset ha hv)))
  | writeInf _ hb ha => exact .inr (.inr (.inr ⟨hb, _, _, ha⟩))
  | quiet | writeIrqEn | writeStatus | drop | issue | writeWord => exact .inl rfl

end StepEvents

/-- Settles O51: the change of each flag, read as its rise and its fall. -/
theorem statusFlagsChangeOnlyByTheirEvents : Obligations.StatusFlagsChangeOnlyByTheirEvents := by
  intro s t _ hstep
  have hev := stepEvent_of_step hstep
  exact ⟨hev.busy_change.of_rises, hev.busy_change.of_falls, hev.done_change.of_rises, hev.done_change.of_falls,
    hev.busyErr_change.of_rises, hev.busyErr_change.of_falls, hev.result_change.resolve_left⟩

/-- Settles O52, by the changes of IRQ_EN and CMD. -/
theorem controlAndCmdChangeOnlyByTheHost : Obligations.ControlAndCmdChangeOnlyByTheHost := by
  intro s t hstep
  have hev := stepEvent_of_step hstep
  exact ⟨hev.irqEn_change.resolve_left, hev.cmd_change.resolve_left⟩

/-- Settles O53, by the changes of a data register and of INF. -/
theorem registersChangeOnlyByTheirWriters : Obligations.RegistersChangeOnlyByTheirWriters := by
  intro s t hstep
  have hev := stepEvent_of_step hstep
  exact ⟨fun r => (hev.readW_change r).resolve_left, hev.inf_change.resolve_left⟩

/-! ### A command reads nothing but the registers (10_state.md R25) -/

theorem SameRegs.trans {s t u : State} (h : SameRegs s t) (h' : SameRegs t u) : SameRegs s u :=
  ⟨fun r => (h'.1 r).trans (h.1 r), h'.2.trans h.2⟩

/-- Two completions end alike: the same registers and the same code. -/
def SameEnd (o o' : Host.Outcome State Fault Refusal) : Prop :=
  ∃ u v, o = .next u ∧ o' = .next v ∧ SameRegs u v ∧ v.result = u.result

section SameRegs
variable {s t : State} (h : SameRegs s t)
include h

theorem SameRegs.val (r : RegIndex) : t.val r = s.val r := congrArg BitVec.toNat (h.1 r)

theorem SameRegs.readPT (i : Index3) : t.readPT i = s.readPT i := readPT_congr h.1 h.2 i

theorem SameRegs.writeW (d : RegIndex) (v : Word256) : SameRegs (s.writeW d v) (t.writeW d v) :=
  ⟨fun r => by rw [readW_writeW, readW_writeW, h.1], h.2⟩

theorem SameRegs.writeInf (i : Index3) (b : Bool) : SameRegs (s.writeInf i b) (t.writeInf i b) :=
  ⟨h.1, congrArg (setBit8 · i b) h.2⟩

theorem SameRegs.writePT (i : Index3) (P : Point) : SameRegs (s.writePT i P) (t.writePT i P) := by
  cases P with
  | infinity => exact ((h.writeW _ _).writeW _ _).writeInf i true
  | finite x y => exact ((h.writeW _ _).writeW _ _).writeInf i false

theorem SameRegs.finish (k : ResultCode) : SameEnd (.next (s.finish k)) (.next (t.finish k)) :=
  ⟨_, _, rfl, rfl, h, rfl⟩

theorem SameRegs.commitW (d : RegIndex) (v : Nat) : SameEnd (commitW s d v) (commitW t d v) :=
  (h.writeW d _).finish .ok

theorem SameRegs.commitPT (d : Index3) (P : Point) : SameEnd (commitPT s d P) (commitPT t d P) :=
  (h.writePT d P).finish _

theorem SameRegs.finishPmul (d : Index3) (r : PmulResult) : SameEnd (finishPmul s d r) (finishPmul t d r) := by
  cases r with
  | ok P => exact (h.writePT d P).finish .ok
  | infinity => exact (h.writePT d .infinity).finish .pointAtInfinity
  | invalid => exact h.finish .invalidScalarResult

theorem SameRegs.execModinv (m : Modulus) (d a : RegIndex) : SameEnd (execModinv m d a s) (execModinv m d a t) := by
  unfold Machine.execModinv
  rw [h.val]
  dsimp only
  split
  · exact h.finish .noInverse
  · exact h.commitW d _

/-- On the same registers every command writes the same and ends with the same code. -/
theorem SameRegs.exec (i : Instr) : SameEnd (exec i s) (exec i t) := by
  have write (d : RegIndex) {x y : Nat} (hxy : y = x) : SameEnd (Machine.commitW s d x) (Machine.commitW t d y) :=
    hxy ▸ h.commitW d x
  have point (d : Index3) {P Q : Point} (hPQ : Q = P) : SameEnd (Machine.commitPT s d P) (Machine.commitPT t d Q) :=
    hPQ ▸ h.commitPT d P
  cases i with
  | modadd m d a b => exact write d (by rw [h.val, h.val])
  | modsub m d a b => exact write d (by rw [h.val, h.val])
  | modmul m d a b => exact write d (by rw [h.val, h.val])
  | montmul m d a b => exact write d (by rw [h.val, h.val])
  | modred m d a => exact write d (by rw [h.val])
  | modinv m d a => exact h.execModinv m d a
  | ldc d c => exact write d rfl
  | padd d a b => exact point _ (by rw [h.readPT, h.readPT])
  | pdbl d a => exact point _ (by rw [h.readPT])
  | pmul d k b =>
    rw [Machine.exec, Machine.exec, execPmul, execPmul, h.val, h.readPT]
    exact h.finishPmul _ _

theorem SameRegs.engineTurn {c : Word32} (hs : s.pending = some c) (ht : t.pending = some c) :
    SameEnd (engineTurn s) (engineTurn t) := by
  cases hd : decode c with
  | command i => rw [engineTurn_command hs hd, engineTurn_command ht hd]; exact h.exec i
  | illegal why => rw [engineTurn_illegal hs hd, engineTurn_illegal ht hd]; exact h.finish .illegalCmd

end SameRegs

/-! ### Host transactions on a busy core -/

/-- `t` runs the same command as the busy `s`, on the same registers. -/
structure SameCommand (s t : State) : Prop where
  pending : t.pending = s.pending
  busy    : t.busy = true
  regs    : SameRegs s t

theorem writeReg_sameCommand {off : Offset} {v : Word32} {s : State} (hb : s.busy = true)
    (hreset : (Transaction.write off v).isSoftReset = false) : SameCommand s (writeReg off v s) := by
  obtain ⟨h, -⟩ | ⟨-, hd, hv⟩ | ⟨h, -⟩ | ⟨h, -⟩ | ⟨h, -⟩ | ⟨-, hidle, -⟩ | ⟨-, hidle, -⟩ | ⟨r, j, -, hidle, -⟩ :=
    writeReg_cases off v s
  case inr.inl => rw [offset_of_ctrl hd, isSoftReset_ctrl hv] at hreset; cases hreset
  iterate 4 · rw [h]; exact ⟨rfl, hb, fun _ => rfl, rfl⟩
  all_goals simp [hb] at hidle

theorem hostTransaction_sameCommand {tr : Transaction} {s : State} (hb : s.busy = true)
    (hreset : tr.isSoftReset = false) : SameCommand s (hostTransaction tr s) := by
  obtain ⟨r, h | ⟨off, v, rfl, -, h⟩⟩ := hostTransaction_cases tr s <;> rw [h]
  · exact ⟨rfl, hb, fun _ => rfl, rfl⟩
  · obtain ⟨hpending, hbusy, hregs⟩ := writeReg_sameCommand hb hreset
    exact ⟨hpending, hbusy, hregs⟩

/-- By induction on the transactions: each finds the core busy and leaves it so. -/
theorem runTransactions_sameCommand {ts : List Transaction} {s : State} (hb : s.busy = true)
    (hreset : ∀ tr ∈ ts, tr.isSoftReset = false) : SameCommand s (runTransactions ts s) := by
  induction ts generalizing s with
  | nil => exact ⟨rfl, hb, fun _ => rfl, rfl⟩
  | cons tr ts ih =>
    obtain ⟨htr, hts⟩ := List.forall_mem_cons.1 hreset
    have hone := hostTransaction_sameCommand hb htr
    have hrest := ih hone.busy hts
    exact ⟨hrest.pending.trans hone.pending, hrest.busy, hone.regs.trans hrest.regs⟩

/-- Settles O16: the transactions leave the command and the registers, and the completion depends on nothing else. -/
theorem hostCannotDisturbARunningCommand : Obligations.HostCannotDisturbARunningCommand := by
  intro s c ts hb hpending hreset
  obtain ⟨hsame, hbusy, hregs⟩ := runTransactions_sameCommand hb hreset
  exact ⟨hsame.trans hpending, hbusy, hregs, hregs.engineTurn hpending (hsame.trans hpending)⟩

end Sys2Proof.Machine

/-! # Proofs of the memory statements (20_memory.md)

One rule per register of the window for a bus read and a bus write (R34 to R41), what a write does on an idle core and
on a busy one, and the words of a data register: written one by one and joined again (R40, R43). The rules
`memRead_…` and `memWrite_…` are meant to be used again. -/

namespace Sys2Proof.Machine

open State

/-! ### Addresses and alignment (R30, R32) -/

theorem base_mod_page : Config.base % 0x1000 = 0 := by
  unfold Config.base
  exact Nat.mul_mod_left _ _

theorem offsetOf_hostAddress (off : Offset) : offsetOf (hostAddress off) = off := by
  apply BitVec.eq_of_toNat_eq
  rw [offsetOf, hostAddress, BitVec.toNat_ofNat, Nat.add_mod, base_mod_page, Nat.zero_add, Nat.mod_mod,
    Nat.mod_eq_of_lt off.isLt]

/-- Settles O34: the base is a multiple of 2 ^ 12, and the core keeps the low 12 bits of the address. -/
theorem windowAddressGivesItsOffset : Obligations.WindowAddressGivesItsOffset :=
  ⟨base_mod_page, offsetOf_hostAddress⟩

theorem memRead_aligned {off : Offset} (h : aligned off = true) (s : State) : memRead off s = (readReg off s, .ok) :=
  if_pos h

theorem memWrite_aligned {off : Offset} (h : aligned off = true) (v : Word32) (s : State) :
    memWrite off v s = (writeReg off v s, .ok) :=
  if_pos h

/-- Settles O35: the two branches of `memRead` and `memWrite`, by `aligned_iff`. -/
theorem misalignedTransactionsAreErrors : Obligations.MisalignedTransactionsAreErrors := by
  intro off v s
  refine ⟨fun hmis => ?_, fun hal => ?_⟩
  · have h : ¬ aligned off = true := mt (aligned_iff off).1 hmis
    exact ⟨if_neg h, if_neg h⟩
  · have h : aligned off = true := (aligned_iff off).2 hal
    exact ⟨memRead_aligned h s, memWrite_aligned h v s⟩

/-! ### The register of an offset (R33) -/

theorem decodeOffset_reserved {off : Offset}
    (h : 0x014 ≤ off.toNat ∧ off.toNat ≤ 0x0FC ∨ 0x300 ≤ off.toNat) : decodeOffset off = .reserved := by
  simp only [decodeOffset]
  iterate 6 rw [if_neg (by omega)]

theorem decodeOffset_word {off : Offset} (h : 0x100 ≤ off.toNat ∧ off.toNat < 0x300) :
    ∃ r j, decodeOffset off = .word r j := by
  simp only [decodeOffset]
  iterate 5 rw [if_neg (by omega)]
  exact ⟨_, _, if_pos h⟩

theorem decodeOffset_eq_inf {off : Offset} (h : off.toNat = 0x010) : decodeOffset off = .inf := by
  rw [(BitVec.eq_of_toNat_eq h : off = offINF), decodeOffset_inf]

theorem decodeOffset_eq_cmd {off : Offset} (h : off.toNat = 0x00C) : decodeOffset off = .cmd := by
  rw [(BitVec.eq_of_toNat_eq h : off = offCMD), decodeOffset_cmd]

/-- The offsets whose writes a busy core drops are those of CMD, INF and the words of W. -/
theorem BusyGuarded.decodeOffset_cases {off : Offset} (h : BusyGuarded off) :
    decodeOffset off = .cmd ∨ decodeOffset off = .inf ∨ ∃ r j, decodeOffset off = .word r j := by
  obtain ⟨-, hcmd | hinf | hword⟩ := h
  · exact .inl (decodeOffset_eq_cmd hcmd)
  · exact .inr (.inl (decodeOffset_eq_inf hinf))
  · exact .inr (.inr (decodeOffset_word hword))

/-! ### A bus read and a bus write of each register -/

section Registers

variable (v : Word32) (s : State) (r : RegIndex) (j : Index3)

@[simp] theorem memRead_id : memRead offID s = (idWord, .ok) := by
  rw [memRead_aligned aligned_id, readReg, decodeOffset_id]

@[simp] theorem memRead_ctrl : memRead offCTRL s = (s.ctrlWord, .ok) := by
  rw [memRead_aligned aligned_ctrl, readReg, decodeOffset_ctrl]

@[simp] theorem memRead_status : memRead offSTATUS s = (s.statusWord, .ok) := by
  rw [memRead_aligned aligned_status, readReg, decodeOffset_status]

@[simp] theorem memRead_cmd : memRead offCMD s = (s.cmd, .ok) := by
  rw [memRead_aligned aligned_cmd, readReg, decodeOffset_cmd]

@[simp] theorem memRead_inf : memRead offINF s = (s.inf.zeroExtend 32, .ok) := by
  rw [memRead_aligned aligned_inf, readReg, decodeOffset_inf]

@[simp] theorem memRead_word : memRead (wordOffset r j) s = (getSlice (s.readW r) j, .ok) := by
  rw [memRead_aligned (aligned_wordOffset r j), readReg, decodeOffset_wordOffset]

@[simp] theorem memWrite_id : memWrite offID v s = (s, .ok) := by
  rw [memWrite_aligned aligned_id, writeReg, decodeOffset_id]

@[simp] theorem memWrite_ctrl : memWrite offCTRL v s = (s.writeCtrl v, .ok) := by
  rw [memWrite_aligned aligned_ctrl, writeReg, decodeOffset_ctrl]

@[simp] theorem memWrite_status : memWrite offSTATUS v s = (s.writeStatus v, .ok) := by
  rw [memWrite_aligned aligned_status, writeReg, decodeOffset_status]

@[simp] theorem memWrite_cmd : memWrite offCMD v s = (s.writeCmd v, .ok) := by
  rw [memWrite_aligned aligned_cmd, writeReg, decodeOffset_cmd]

@[simp] theorem memWrite_inf : memWrite offINF v s = (s.writeInfReg v, .ok) := by
  rw [memWrite_aligned aligned_inf, writeReg, decodeOffset_inf]

@[simp] theorem memWrite_word : memWrite (wordOffset r j) v s = (s.writeWord r j v, .ok) := by
  rw [memWrite_aligned (aligned_wordOffset r j), writeReg, decodeOffset_wordOffset]

end Registers

/-! ### What a write does on an idle core and on a busy one (R41) -/

section IdleAndBusy

variable {s : State} (v : Word32)

theorem writeCmd_idle (h : s.busy = false) : s.writeCmd v = s.issue v := by simp [writeCmd, h]

theorem writeInfReg_idle (h : s.busy = false) : s.writeInfReg v = { s with inf := v.extractLsb' 0 8 } := by
  simp [writeInfReg, h]

theorem writeWord_idle (h : s.busy = false) (r : RegIndex) (j : Index3) :
    s.writeWord r j v = s.writeW r (setSlice (s.readW r) j v) := by
  rw [writeWord, h]
  rfl

/-- A busy core drops an aligned write to CMD, INF or the W window. -/
theorem memWrite_busyGuarded {off : Offset} (h : BusyGuarded off) (hb : s.busy = true) :
    memWrite off v s = (s.dropWrite, .ok) := by
  rw [memWrite_aligned ((aligned_iff off).2 h.1), writeReg]
  obtain hd | hd | ⟨r, j, hd⟩ := h.decodeOffset_cases <;> rw [hd] <;> exact congrArg (·, BusResp.ok) (if_pos hb)

/-- A write to an offset that is not guarded does not look at BUSY. -/
theorem writeReg_setBusy {off : Offset} (hal : aligned off = true) (h : ¬ BusyGuarded off) (x : Bool) :
    { writeReg off v { s with busy := x } with busy := false } = ({ writeReg off v s with busy := false } : State) := by
  have guarded := mt (busyGuarded_of_decodeOffset hal) h
  unfold writeReg
  cases hd : decodeOffset off with
  | id | status | reserved => rfl
  | ctrl => cases hv : v.getLsbD 1 <;> simp only [writeCtrl, hv] <;> rfl
  | cmd | inf | word => simp [hd] at guarded

end IdleAndBusy

/-- Settles O43: the guarded offsets are `BusyGuarded`, and no other write looks at BUSY. -/
theorem writesWhileBusyAreDropped : Obligations.WritesWhileBusyAreDropped := by
  intro off v s hal
  have hal' := (aligned_iff off).2 hal
  refine ⟨fun hoff hb => memWrite_busyGuarded v ⟨hal, hoff⟩ hb, fun hoff x => ?_⟩
  rw [memWrite_aligned hal', memWrite_aligned hal']
  exact writeReg_setBusy v hal' (fun h => hoff h.2) x

/-! ### ID, CTRL, STATUS, CMD and INF (R35 to R39) -/

/-- Settles O37, by the two rules of ID. -/
theorem idRegister : Obligations.IdRegister :=
  fun v s => ⟨memRead_id s, memWrite_id v s⟩

theorem flagBit_toNat (f : Bool) : (flagBit f).toNat = f.toNat := by cases f <;> rfl

theorem flagBit_getLsbD_of_pos {k : Nat} (hk : 0 < k) (f : Bool) : (flagBit f).getLsbD k = false :=
  BitVec.getLsbD_of_ge _ _ hk

theorem ctrlWord_toNat (s : State) : s.ctrlWord.toNat = s.irqEn.toNat := by
  rw [ctrlWord, BitVec.zeroExtend_eq_setWidth, BitVec.toNat_setWidth_of_le (by decide), flagBit_toNat]

theorem writeCtrl_irqEn {v : Word32} (hv : v.getLsbD 1 = false) (s : State) :
    s.writeCtrl v = { s with irqEn := v.getLsbD 0 } := by
  rw [writeCtrl, hv]
  rfl

/-- Settles O38: bit 1 of the word written decides between the reset and IRQ_EN. -/
theorem ctrlRegister : Obligations.CtrlRegister := by
  intro v s
  refine ⟨memRead_ctrl State.reset, ?_, fun hv => ?_, fun hv => ?_⟩
  · exact (congrArg (·.1.toNat) (memRead_ctrl s)).trans (ctrlWord_toNat s)
  · exact congrArg Prod.fst (memWrite_ctrl_softReset s hv)
  · exact (congrArg Prod.fst (memWrite_ctrl v s)).trans (writeCtrl_irqEn hv s)

theorem toNat_append_eq_add {m n : Nat} (x : BitVec m) (y : BitVec n) : (x ++ y).toNat = x.toNat * 2 ^ n + y.toNat := by
  rw [BitVec.toNat_append, ← Nat.shiftLeft_add_eq_or_of_lt y.isLt, Nat.shiftLeft_eq]

theorem statusWord_toNat (s : State) :
    s.statusWord.toNat = s.busy.toNat + 2 * s.done.toNat + 4 * s.busyErr.toNat + 16 * s.result.toNat := by
  have := s.busy.toNat_lt
  have := s.done.toNat_lt
  have := s.busyErr.toNat_lt
  simp only [statusWord, toNat_append_eq_add, flagBit_toNat, BitVec.toNat_zero]
  omega

theorem writeStatus_eq (v : Word32) (s : State) :
    s.writeStatus v = { s with done := s.done && !v.getLsbD 1, busyErr := s.busyErr && !v.getLsbD 2 } := by
  cases h1 : v.getLsbD 1 <;> cases h2 : v.getLsbD 2 <;> rw [writeStatus, h1, h2] <;> simp

/-- Settles O39, by the word of STATUS and its write-one-to-clear. -/
theorem statusRegister : Obligations.StatusRegister := by
  intro v s
  refine ⟨memRead_status State.reset, ?_, ?_⟩
  · exact (congrArg (·.1.toNat) (memRead_status s)).trans (statusWord_toNat s)
  · exact (congrArg Prod.fst (memWrite_status v s)).trans (writeStatus_eq v s)

theorem busyGuarded_cmd : BusyGuarded offCMD := ⟨rfl, .inl rfl⟩

theorem busyGuarded_inf : BusyGuarded offINF := ⟨rfl, .inr (.inl rfl)⟩

/-- Settles O40: an idle core issues, a busy one drops. -/
theorem cmdRegister : Obligations.CmdRegister := by
  intro v s
  refine ⟨memRead_cmd s, fun hidle => ?_, fun hb => memWrite_busyGuarded v busyGuarded_cmd hb⟩
  exact (memWrite_cmd v s).trans (congrArg (·, BusResp.ok) (writeCmd_idle v hidle))

theorem infWord_toNat (s : State) : (s.inf.zeroExtend 32).toNat = s.inf.toNat := by
  rw [BitVec.zeroExtend_eq_setWidth, BitVec.toNat_setWidth_of_le (by decide)]

/-- Settles O41: an idle core takes the low eight bits, a busy one drops. -/
theorem infRegister : Obligations.InfRegister := by
  intro v s
  refine ⟨?_, fun hidle => ?_, fun hb => memWrite_busyGuarded v busyGuarded_inf hb⟩
  · exact (congrArg (·.1.toNat) (memRead_inf s)).trans (infWord_toNat s)
  · refine ⟨_, (memWrite_inf v s).trans (congrArg (·, BusResp.ok) (writeInfReg_idle v hidle)), rfl, ?_⟩
    rw [BitVec.extractLsb'_toNat, Nat.shiftRight_zero]

/-! ### Reserved offsets and reserved bits (R34) -/

theorem readReg_reserved {off : Offset} (h : decodeOffset off = .reserved) (s : State) : readReg off s = 0#32 := by
  rw [readReg, h]

theorem writeReg_reserved {off : Offset} (h : decodeOffset off = .reserved) (v : Word32) (s : State) :
    writeReg off v s = s := by
  rw [writeReg, h]

theorem ctrlWord_reserved (s : State) {k : Nat} (hk : 2 ≤ k) : s.ctrlWord.getLsbD k = false := by
  rw [ctrlWord, BitVec.zeroExtend_eq_setWidth, BitVec.getLsbD_setWidth, flagBit_getLsbD_of_pos (by omega),
    Bool.and_false]

theorem statusWord_reserved (s : State) {k : Nat} (hk : k = 3 ∨ 8 ≤ k) : s.statusWord.getLsbD k = false := by
  have hresult := s.result.isLt
  have hbusy := s.busy.toNat_lt
  have hdone := s.done.toNat_lt
  have hbusyErr := s.busyErr.toNat_lt
  have hword := statusWord_toNat s
  obtain rfl | hk := hk
  · rw [BitVec.getLsbD, Nat.testBit_eq_decide_div_mod_eq, decide_eq_false_iff_not]
    omega
  · have hlt : s.statusWord.toNat < 2 ^ 8 := by omega
    exact Nat.testBit_lt_two_pow (hlt.trans_le (Nat.pow_le_pow_right (by decide) hk))

theorem infWord_reserved (s : State) {k : Nat} (hk : 8 ≤ k) : (s.inf.zeroExtend 32).getLsbD k = false := by
  rw [BitVec.zeroExtend_eq_setWidth, BitVec.getLsbD_setWidth, BitVec.getLsbD_of_ge _ _ hk, Bool.and_false]

theorem writeCtrl_mask (v : Word32) (s : State) : s.writeCtrl (v &&& 0x00000003#32) = s.writeCtrl v := by
  simp [writeCtrl]

theorem writeStatus_mask (v : Word32) (s : State) : s.writeStatus (v &&& 0x00000006#32) = s.writeStatus v := by
  simp [writeStatus]

theorem extract_inf_mask (v : Word32) : (v &&& 0x000000FF#32).extractLsb' 0 8 = v.extractLsb' 0 8 := by
  have ones : (0x000000FF#32).extractLsb' 0 8 = BitVec.allOnes 8 := by decide
  rw [BitVec.extractLsb'_and, ones, BitVec.and_allOnes]

/-- Settles O36: the reserved offsets by their decoding, the reserved bits register by register. -/
theorem reservedOffsetsAndBits : Obligations.ReservedOffsetsAndBits := by
  refine ⟨fun off v s hal hoff => ?_,
    fun v s k => ⟨fun hk => ?_, fun hk => ?_, fun hk => ?_, ?_, ?_, fun hidle => ?_⟩⟩
  · have hal' := (aligned_iff off).2 hal
    have hd := decodeOffset_reserved hoff
    rw [memRead_aligned hal', memWrite_aligned hal', readReg_reserved hd, writeReg_reserved hd]
    exact ⟨rfl, rfl⟩
  · rw [memRead_ctrl]; exact ctrlWord_reserved s hk
  · rw [memRead_status]; exact statusWord_reserved s hk
  · rw [memRead_inf]; exact infWord_reserved s hk
  · rw [memWrite_ctrl, memWrite_ctrl, writeCtrl_mask]
  · rw [memWrite_status, memWrite_status, writeStatus_mask]
  · rw [memWrite_inf, memWrite_inf, writeInfReg_idle _ hidle, writeInfReg_idle _ hidle, extract_inf_mask]

/-! ### The W window (R40) -/

theorem getSlice_toNat (x : Word256) (j : Index3) :
    (getSlice x j).toNat = x.toNat / 2 ^ (224 - 32 * j.toNat) % 2 ^ 32 := by
  rw [getSlice, BitVec.extractLsb'_toNat, Nat.shiftRight_eq_div_pow, sliceLow]

/-- Replacing word `j` leaves the bits outside `[255 − 32j : 224 − 32j]`. -/
theorem setSlice_getLsbD_outside (x : Word256) {j : Index3} (v : Word32) {k : Nat}
    (hk : k < 224 - 32 * j.toNat ∨ 256 - 32 * j.toNat ≤ k) : (setSlice x j v).getLsbD k = x.getLsbD k := by
  obtain hlt | hge := Nat.lt_or_ge k 256
  · have hj : j.toNat < 8 := j.isLt
    rw [setSlice_getLsbD _ _ _ _ hlt, sliceLow, if_neg (by omega)]
  · rw [BitVec.getLsbD_of_ge _ _ hge, BitVec.getLsbD_of_ge _ _ hge]

theorem busyGuarded_wordOffset (r : RegIndex) (j : Index3) : BusyGuarded (wordOffset r j) :=
  busyGuarded_of_decodeOffset (aligned_wordOffset r j) (.inr (.inr ⟨r, j, decodeOffset_wordOffset r j⟩))

theorem memWrite_word_idle {s : State} (h : s.busy = false) (r : RegIndex) (j : Index3) (v : Word32) :
    memWrite (wordOffset r j) v s = (s.writeW r (setSlice (s.readW r) j v), .ok) := by
  rw [memWrite_word, writeWord_idle v h]

theorem memRead_word_writeW (s : State) (r : RegIndex) (j : Index3) (v : Word32) :
    memRead (wordOffset r j) (s.writeW r (setSlice (s.readW r) j v)) = (v, .ok) := by
  rw [memRead_word, readW_writeW_self, getSlice_setSlice_self]

/-- Settles O42: the rules of a word of W and of its slice. -/
theorem windowSlices : Obligations.WindowSlices := by
  intro r j v s off
  refine ⟨⟨_, memRead_word s r j, getSlice_toNat _ j⟩, fun hidle => ?_,
    fun hb => memWrite_busyGuarded v (busyGuarded_wordOffset r j) hb⟩
  refine ⟨_, memWrite_word_idle hidle r j v, rfl, memRead_word_writeW s r j v,
    fun q hq => readW_writeW_ne s hq _, fun k hk => ?_⟩
  rw [readW_writeW_self, setSlice_getLsbD_outside _ _ hk]

/-! ### Reads (R42, R44) -/

/-- Settles O45: the read branch of `hostTransaction` is the answer at the port. -/
theorem readsHaveNoSideEffect : Obligations.ReadsHaveNoSideEffect :=
  fun _ _ => rfl

/-- A read of INF or of a word of W depends on the registers only. -/
theorem SameRegs.memRead_eq {s t : State} (h : SameRegs s t) {off : Offset}
    (hd : decodeOffset off = .inf ∨ ∃ r j, decodeOffset off = .word r j) : memRead off t = memRead off s := by
  have hread : readReg off t = readReg off s := by
    obtain hinf | ⟨r, j, hword⟩ := hd
    · simp only [readReg, hinf, h.2]
    · simp only [readReg, hword, h.1 r]
  rw [memRead, memRead, hread]

/-- A write to CMD on an idle core issues, and the port answers OK. -/
theorem hostTransaction_issue {s : State} (h : s.busy = false) (c : Word32) :
    hostTransaction (.write offCMD c) s = { s.issue c with response := some (.writeDone .ok) } := by
  rw [hostTransaction, memWrite_cmd, writeCmd_idle c h]

/-- Settles O44: the issue leaves the registers, and no transaction on the busy core changes them. -/
theorem readsWhileBusyGiveOldValues : Obligations.ReadsWhileBusyGiveOldValues := by
  intro s c ts off hidle hreset hoff
  have hregs : SameRegs s (hostTransaction (.write offCMD c) s) := by
    rw [hostTransaction_issue hidle]; exact ⟨fun _ => rfl, rfl⟩
  have hbusy : (hostTransaction (.write offCMD c) s).busy = true := by rw [hostTransaction_issue hidle]; rfl
  have hrest := runTransactions_sameCommand hbusy hreset
  exact ⟨hrest.busy, (hregs.trans hrest.regs).memRead_eq (hoff.imp decodeOffset_eq_inf decodeOffset_word)⟩

/-! ### `WR` and `RD` (R43, 30_encoding.md R61) -/

/-- `t` is `s` after the words `js` of W[r] were replaced by those of `v`, on an idle core. -/
structure WroteWords (r : RegIndex) (v : Word256) (js : List Index3) (s t : State) : Prop where
  busy    : t.busy = false
  busyErr : t.busyErr = s.busyErr
  frame   : OnlyW s t r
  words   : ∀ j, getSlice (t.readW r) j = if j ∈ js then getSlice v j else getSlice (s.readW r) j

theorem hostTransaction_writeWord {s : State} (h : s.busy = false) (r : RegIndex) (j : Index3) (v : Word32) :
    hostTransaction (.write (wordOffset r j) v) s =
      { s.writeW r (setSlice (s.readW r) j v) with response := some (.writeDone .ok) } := by
  rw [hostTransaction, memWrite_word, writeWord_idle v h]

theorem getSlice_setSlice (x : Word256) (j k : Index3) (v : Word32) :
    getSlice (setSlice x j v) k = if k = j then v else getSlice x k := by
  split
  · next h => rw [h, getSlice_setSlice_self]
  · next h => exact getSlice_setSlice_ne x h v

theorem hostTransaction_wroteWords {s : State} (h : s.busy = false) (r : RegIndex) (v : Word256) (j : Index3) :
    WroteWords r v [j] s (hostTransaction (.write (wordOffset r j) (getSlice v j)) s) := by
  rw [hostTransaction_writeWord h]
  refine ⟨h, rfl, ⟨fun q hq => readW_writeW_ne s hq _, rfl⟩, fun k => ?_⟩
  change getSlice ((s.writeW r _).readW r) k = _
  rw [readW_writeW_self, getSlice_setSlice]
  grind

theorem WroteWords.trans {r : RegIndex} {v : Word256} {js ks : List Index3} {s t u : State}
    (h : WroteWords r v js s t) (h' : WroteWords r v ks t u) : WroteWords r v (js ++ ks) s u where
  busy := h'.busy
  busyErr := h'.busyErr.trans h.busyErr
  frame := ⟨fun q hq => (h'.frame.1 q hq).trans (h.frame.1 q hq), h'.frame.2.trans h.frame.2⟩
  words j := by rw [h'.words, h.words]; grind

/-- By induction on the words written: each write finds the core idle and leaves it so. -/
theorem runTransactions_wroteWords (r : RegIndex) (v : Word256) (js : List Index3) {s : State} (h : s.busy = false) :
    WroteWords r v js s (runTransactions (js.map fun j => .write (wordOffset r j) (getSlice v j)) s) := by
  induction js generalizing s with
  | nil => exact ⟨h, rfl, ⟨fun _ _ => rfl, rfl⟩, fun _ => rfl⟩
  | cons j js ih =>
    have hone := hostTransaction_wroteWords h r v j
    exact hone.trans (ih hone.busy)

theorem mem_wordOrder (j : Index3) : j ∈ wordOrder := by
  revert j; decide

/-- One word joined to those above it. -/
theorem shiftLeft_or_getSlice {x acc : Word256} (j : Index3) (h : acc = x >>> (sliceLow j + 32)) :
    (acc <<< 32) ||| (getSlice x j).zeroExtend 256 = x >>> sliceLow j := by
  subst h
  apply BitVec.eq_of_getLsbD_eq
  intro k hk
  rw [BitVec.getLsbD_or, BitVec.getLsbD_shiftLeft, BitVec.getLsbD_ushiftRight, BitVec.getLsbD_ushiftRight,
    BitVec.zeroExtend_eq_setWidth, BitVec.getLsbD_setWidth]
  obtain hlt | hge := Nat.lt_or_ge k 32
  · rw [getSlice_getLsbD _ _ _ hlt]
    simp [hk, hlt]
  · have e : sliceLow j + 32 + (k - 32) = sliceLow j + k := by omega
    rw [BitVec.getLsbD_of_ge _ _ hge, e]
    simp [hk, hge]

/-- The words of a 256-bit value, joined most significant first, give the value. -/
theorem joinWords_getSlice (x : Word256) : joinWords (wordOrder.map (getSlice x)) = x := by
  have hzero : 0#256 = x >>> (sliceLow 0#3 + 32) := (BitVec.ushiftRight_eq_zero (le_refl 256)).symm
  have hlast : x >>> sliceLow 7#3 = x := by simp [sliceLow]
  exact (shiftLeft_or_getSlice 7#3 <| shiftLeft_or_getSlice 6#3 <| shiftLeft_or_getSlice 5#3 <|
    shiftLeft_or_getSlice 4#3 <| shiftLeft_or_getSlice 3#3 <| shiftLeft_or_getSlice 2#3 <|
    shiftLeft_or_getSlice 1#3 <| shiftLeft_or_getSlice 0#3 hzero).trans hlast

theorem rdWords_eq (r : RegIndex) (s : State) : rdWords r s = wordOrder.map (getSlice (s.readW r)) := by
  simp only [rdWords, memRead_word]

/-- Settles O46: the eight writes replace every word of the register, so it is the value, whose words join to it. -/
theorem wrThenRdReturnsTheValue : Obligations.WrThenRdReturnsTheValue := by
  intro r v s hidle t
  have hwrote : WroteWords r v wordOrder s t := runTransactions_wroteWords r v wordOrder hidle
  have hvalue : t.readW r = v := eq_of_getSlice fun j => by rw [hwrote.words, if_pos (mem_wordOrder j)]
  refine ⟨?_, hvalue, hwrote.frame, hwrote.busyErr⟩
  rw [rdWords_eq, hvalue, joinWords_getSlice]

end Sys2Proof.Machine

/-! # Proofs of the encoding statements (30_encoding.md)

The decoder said once as a condition on the fields (`decode_eq_command_iff`), the encoder against it (R54, R55), the
opcode map against it (R57, R58) and the illegal words (R59); then issue and completion (R63, R64), and the host
operations and pseudo-instructions (R61, R62) on a core whose engine completes each command. -/

namespace Sys2Proof

/-! ### What the decoder answers (R55, R58) -/

/-- The format of each command (R55, R57). -/
def formatOf : Instr → Format
  | .modadd _ _ _ _ | .modsub _ _ _ _ | .modmul _ _ _ _ | .montmul _ _ _ _ => .fr
  | .modred _ _ _ | .modinv _ _ _ => .fu
  | .ldc _ _ => .fc
  | .padd _ _ _ => .fp2
  | .pdbl _ _ => .fp1
  | .pmul _ _ _ => .fk

/-- Every part that the format `f` requires to be 0 is 0 in `c` (R55). -/
def Format.Meets (f : Format) (c : Word32) : Prop := ∀ part ∈ f.mustBeZero, part.isZero c = true

theorem decode_eq_command_iff {c : Word32} {i : Instr} :
    decode c = .command i ↔ ∃ f, rowOf c = some (f, i) ∧ f.Meets c := by
  unfold decode
  cases hrow : rowOf c with
  | none => simp
  | some fi =>
    obtain ⟨f, j⟩ := fi
    dsimp only
    cases hfind : f.mustBeZero.find? fun part => !part.isZero c with
    | none =>
      have hmeets : f.Meets c := fun part hpart => by simpa using List.find?_eq_none.1 hfind part hpart
      simp [hmeets]
    | some part =>
      have hmeets : ¬ f.Meets c := fun h => by
        have := List.find?_some hfind
        rw [h part (List.mem_of_find?_eq_some hfind)] at this
        cases this
      simp [hmeets]

theorem decode_eq_illegal_iff {c : Word32} : (∃ why, decode c = .illegal why) ↔ ∀ i, decode c ≠ .command i := by
  cases decode c <;> simp

/-! ### The encoder (R54, R55) -/

theorem fieldOPC_encode (i : Instr) : fieldOPC (encode i) = opcode i := by
  cases i <;> exact fieldOPC_layout ..

theorem rowOf_encode (i : Instr) : rowOf (encode i) = some (formatOf i, i) := by
  rw [rowOf, fieldOPC_encode]
  cases i <;> simp [opcode, encode, formatOf]

/-- The encoder leaves every part at 0 but the operands' bits 3 (R55, R56). -/
theorem meets_encode (i : Instr) : (formatOf i).Meets (encode i) ↔ WellFormed i := by
  cases i <;> simp [Format.Meets, Format.mustBeZero, formatOf, encode, ZeroPart.isZero, WellFormed, Instr.wellFormed,
    and_assoc]

/-- Settles O3: the word selects the command's own row, so the parts its format requires to be 0 decide. -/
theorem decodeOfEncodeGivesBack : Obligations.DecodeOfEncodeGivesBack := by
  intro i
  rw [decode_eq_command_iff, ← meets_encode i, rowOf_encode]
  simp

theorem decode_encode {i : Instr} (h : WellFormed i) : decode (encode i) = .command i :=
  (decodeOfEncodeGivesBack i).2 h

/-- The row of a word is that of its opcode (R57). -/
theorem rowOf_opcode {c : Word32} {f : Format} {i : Instr} (h : rowOf c = some (f, i)) :
    fieldOPC c = opcode i ∧ f = formatOf i := by
  unfold rowOf at h
  split at h
  case h_11 => cases h
  all_goals
    next hopc =>
    cases h
    exact ⟨BitVec.eq_of_toNat_eq hopc, rfl⟩

/-- A word that meets the format of its row is the encoding of the row's command (R54). -/
theorem encode_of_rowOf {c : Word32} {f : Format} {i : Instr} (hrow : rowOf c = some (f, i)) (hmeets : f.Meets c) :
    encode i = c := by
  have hz : fieldZ c = 0#14 := by
    have hpart : ZeroPart.z ∈ f.mustBeZero := by cases f <;> decide
    simpa [ZeroPart.isZero] using hmeets .z hpart
  conv_rhs => rw [← layout_fields hz, (rowOf_opcode hrow).1]
  unfold rowOf at hrow
  split at hrow
  case h_11 => cases hrow
  all_goals
    cases hrow
    simp only [Format.Meets, Format.mustBeZero, List.forall_mem_cons, ZeroPart.isZero, beq_iff_eq] at hmeets
    simp [encode, hmeets]

/-- Settles O4: the word is the encoding of its row's command, so O3 gives that the command is well formed. -/
theorem encodeOfDecodeGivesBack : Obligations.EncodeOfDecodeGivesBack := by
  intro c i hdecode
  obtain ⟨f, hrow, hmeets⟩ := decode_eq_command_iff.1 hdecode
  have henc : encode i = c := encode_of_rowOf hrow hmeets
  exact ⟨(decodeOfEncodeGivesBack i).1 (henc ▸ hdecode), henc⟩

/-- Settles O7: each word is the encoding of its command. -/
theorem sampleWordsDecode : Obligations.SampleWordsDecode :=
  ⟨rfl, rfl, rfl, rfl, decode_encode (i := .modadd .p 3 1 2) rfl, decode_encode (i := .modsub .p 3 1 2) rfl,
    decode_encode (i := .modmul .n 5 3 4) rfl, decode_encode (i := .montmul .p 3 1 2) rfl,
    decode_encode (i := .modred .n 3 1) rfl, decode_encode (i := .modinv .p 3 1) rfl,
    decode_encode (i := .ldc 4 4) rfl, decode_encode (i := .padd 2 0 1) rfl, decode_encode (i := .pdbl 1 0) rfl,
    decode_encode (i := .pmul 1 8 0) rfl⟩

/-! ### The opcode map (R57, R58) -/

/-- The mask of each format: the opcode and the parts that must be 0 (R57). -/
def Format.mask : Format → Word32
  | .fr => 0xF8003FFF#32
  | .fu => 0xF807BFFF#32
  | .fc => 0xF847FFFF#32
  | .fp2 => 0xFC447FFF#32
  | .fp1 => 0xFC47FFFF#32
  | .fk => 0xFC047FFF#32

/-- The word of an opcode whose other fields are 0: the match of its row (R57). -/
def opcodeWord (opc : BitVec 5) : Word32 := layout opc 0#4 0#4 0#4 0#1

/-- Two words agree at the bits of a slice on which they agree. -/
theorem getLsbD_eq_of_extractLsb' {c c' : Word32} {lo len k : Nat} (h : c.extractLsb' lo len = c'.extractLsb' lo len)
    (hk : lo ≤ k ∧ k < lo + len) : c.getLsbD k = c'.getLsbD k := by
  have hbit := congrArg (·.getLsbD (k - lo)) h
  have hlt : k - lo < len := by omega
  have hadd : lo + (k - lo) = k := by omega
  simpa [BitVec.getLsbD_extractLsb', hlt, hadd] using hbit

/-- A word is its six fields (R54). -/
theorem eq_iff_fields {c c' : Word32} : c = c' ↔ fieldOPC c = fieldOPC c' ∧ fieldD c = fieldD c' ∧
    fieldA c = fieldA c' ∧ fieldB c = fieldB c' ∧ fieldMSEL c = fieldMSEL c' ∧ fieldZ c = fieldZ c' := by
  refine ⟨by rintro rfl; simp, fun ⟨hopc, hd, ha, hb, hmsel, hz⟩ => BitVec.eq_of_getLsbD_eq fun k hk => ?_⟩
  have hfield : 27 ≤ k ∧ k < 27 + 5 ∨ 23 ≤ k ∧ k < 23 + 4 ∨ 19 ≤ k ∧ k < 19 + 4 ∨ 15 ≤ k ∧ k < 15 + 4 ∨
      14 ≤ k ∧ k < 14 + 1 ∨ 0 ≤ k ∧ k < 0 + 14 := by omega
  obtain h | h | h | h | h | h := hfield
  · exact getLsbD_eq_of_extractLsb' hopc h
  · exact getLsbD_eq_of_extractLsb' hd h
  · exact getLsbD_eq_of_extractLsb' ha h
  · exact getLsbD_eq_of_extractLsb' hb h
  · exact getLsbD_eq_of_extractLsb' hmsel h
  · exact getLsbD_eq_of_extractLsb' hz h

theorem and_eight_eq_zero (x : RegIndex) : x &&& 8#4 = 0#4 ↔ isIndex3 x = true := by
  revert x; decide

/-- The match and mask of a row test its opcode and the parts that its format requires to be 0 (R57). -/
theorem and_mask_eq_iff (f : Format) (opc : BitVec 5) (c : Word32) :
    c &&& f.mask = opcodeWord opc ↔ fieldOPC c = opc ∧ f.Meets c := by
  have ones1 (x : BitVec 1) : x &&& 1#1 = x := BitVec.and_allOnes
  have ones4 (x : BitVec 4) : x &&& 15#4 = x := BitVec.and_allOnes
  have ones5 (x : BitVec 5) : x &&& 31#5 = x := BitVec.and_allOnes
  have ones14 (x : BitVec 14) : x &&& 16383#14 = x := BitVec.and_allOnes
  rw [eq_iff_fields, opcodeWord, fieldOPC_layout, fieldD_layout, fieldA_layout, fieldB_layout, fieldMSEL_layout,
    fieldZ_layout]
  cases f <;>
    simp [Format.mask, Format.Meets, Format.mustBeZero, ZeroPart.isZero, fieldOPC, fieldD, fieldA, fieldB, fieldMSEL,
      fieldZ, BitVec.extractLsb'_and, and_eight_eq_zero, ones1, ones4, ones5, ones14, and_comm,
      and_left_comm, and_assoc]

/-- Every row of the opcode map is the match and mask of an opcode and a format, and `rowOf` selects it (R57). -/
theorem opcodeTable_shape : ∀ r ∈ opcodeTable, ∃ opc f, r.matchBits = opcodeWord opc ∧ r.mask = Format.mask f ∧
    ∀ c, fieldOPC c = opc → rowOf c = some (f, r.build c) := by
  simp only [opcodeTable, List.forall_mem_cons]
  refine ⟨⟨1, .fr, rfl, rfl, ?_⟩, ⟨2, .fr, rfl, rfl, ?_⟩, ⟨3, .fr, rfl, rfl, ?_⟩, ⟨4, .fr, rfl, rfl, ?_⟩,
    ⟨5, .fu, rfl, rfl, ?_⟩, ⟨6, .fu, rfl, rfl, ?_⟩, ⟨7, .fc, rfl, rfl, ?_⟩, ⟨8, .fp2, rfl, rfl, ?_⟩,
    ⟨9, .fp1, rfl, rfl, ?_⟩, ⟨10, .fk, rfl, rfl, ?_⟩, nofun⟩ <;>
  · intro c hopc
    rw [rowOf, hopc]
    rfl

/-- A word that tests as a row decodes to the row's command (R58). -/
theorem decode_of_fits {r : OpcodeRow} {c : Word32} (hr : r ∈ opcodeTable) (hfits : r.fits c = true) :
    r.matchBits = opcodeWord (fieldOPC c) ∧ decode c = .command (r.build c) := by
  obtain ⟨opc, f, hmatch, hmask, hrow⟩ := opcodeTable_shape r hr
  rw [OpcodeRow.fits, beq_iff_eq, hmatch, hmask, and_mask_eq_iff] at hfits
  obtain ⟨hopc, hmeets⟩ := hfits
  exact ⟨hopc ▸ hmatch, decode_eq_command_iff.2 ⟨f, hrow c hopc, hmeets⟩⟩

theorem exists_row_of_opcode (i : Instr) : ∃ r ∈ opcodeTable, r.matchBits = opcodeWord (opcode i) := by
  have rows : ∀ k ∈ [1#5, 2#5, 3#5, 4#5, 5#5, 6#5, 7#5, 8#5, 9#5, 10#5], ∃ r ∈ opcodeTable,
      r.matchBits = opcodeWord k := by decide
  exact rows _ (by cases i <;> simp [opcode])

theorem opcodeWord_inj {k k' : BitVec 5} (h : opcodeWord k = opcodeWord k') : k = k' := by
  simpa [opcodeWord] using congrArg fieldOPC h

/-- A legal word tests as the row of its command (R58). -/
theorem fits_of_decode {c : Word32} {i : Instr} (h : decode c = .command i) :
    ∃ r ∈ opcodeTable, r.fits c = true ∧ r.build c = i := by
  obtain ⟨f, hrow, hmeets⟩ := decode_eq_command_iff.1 h
  have hopc := (rowOf_opcode hrow).1
  obtain ⟨r, hr, hmatch⟩ := exists_row_of_opcode i
  obtain ⟨opc, f', hmatch', hmask, hrow'⟩ := opcodeTable_shape r hr
  have hopc' : fieldOPC c = opc := by rw [hopc]; exact opcodeWord_inj (hmatch.symm.trans hmatch')
  cases (hrow' c hopc').symm.trans hrow
  refine ⟨r, hr, ?_, rfl⟩
  rw [OpcodeRow.fits, beq_iff_eq, hmatch', hmask, and_mask_eq_iff]
  exact ⟨hopc', hmeets⟩

/-- The rows of the opcode map have different matches (R57). -/
theorem opcodeTable_matchBits_ne : opcodeTable.Pairwise fun r q => r.matchBits ≠ q.matchBits := by decide

/-- Settles O5: the row a word fits has the word's opcode in its match, and `decode` answers that row's command. -/
theorem decoderFollowsMatchAndMask : Obligations.DecoderFollowsMatchAndMask := by
  refine ⟨fun c i => ⟨fun hdecode => ?_, fun htable => ?_⟩, fun c => ?_⟩
  · obtain ⟨r, hr, hfits, -⟩ := fits_of_decode hdecode
    obtain ⟨q, hq⟩ := Option.isSome_iff_exists.1 (List.find?_isSome (p := (·.fits c)).2 ⟨r, hr, hfits⟩)
    have hqfits : q.fits c = true := List.find?_some (p := fun q : OpcodeRow => q.fits c) hq
    have hqc := (decode_of_fits (List.mem_of_find?_eq_some hq) hqfits).2
    cases hqc.symm.trans hdecode
    rw [tableDecode, hq, Option.map_some]
  · obtain ⟨r, hfind, rfl⟩ := Option.map_eq_some_iff.1 htable
    have hfits : r.fits c = true := List.find?_some (p := fun q : OpcodeRow => q.fits c) hfind
    exact (decode_of_fits (List.mem_of_find?_eq_some hfind) hfits).2
  · refine opcodeTable_matchBits_ne.imp_of_mem fun hr hq hne ⟨hrc, hqc⟩ => hne ?_
    exact (decode_of_fits hr hrc).1.trans (decode_of_fits hq hqc).1.symm

/-! ### The illegal words (R59) -/

/-- The opcodes whose format requires the part to be 0 (R55, R57, R59). -/
def ZeroPart.opcodes : ZeroPart → List Nat
  | .z => [1, 2, 3, 4, 5, 6, 7, 8, 9, 10]
  | .msel => [7, 8, 9, 10]
  | .b => [5, 6, 7, 9]
  | .dBit3 => [8, 9, 10]
  | .aBit3 => [7, 8, 9]
  | .bBit3 => [8, 10]

/-- The two tables agree: what the command's format requires to be 0, and the opcodes that require it. -/
theorem ZeroPart.mem_mustBeZero (part : ZeroPart) (i : Instr) :
    part ∈ (formatOf i).mustBeZero ↔ (opcode i).toNat ∈ part.opcodes := by
  cases i <;> cases part <;> simp [formatOf, Format.mustBeZero, opcode, ZeroPart.opcodes]

/-- A word is in no row of the opcode map exactly when OPC is 0 or at least 11 (R57). -/
theorem rowOf_eq_none_iff {c : Word32} : rowOf c = none ↔ (fieldOPC c).toNat = 0 ∨ 11 ≤ (fieldOPC c).toNat := by
  unfold rowOf
  split
  case h_11 =>
    simp only [imp_false] at *
    exact iff_of_true trivial (by omega)
  all_goals next hopc => simp [hopc]

/-- A word is illegal when it is in no row, or when a part that its opcode requires to be 0 is not (R59). -/
theorem decode_illegal_iff {c : Word32} : (∃ why, decode c = .illegal why) ↔
    rowOf c = none ∨ ∃ part : ZeroPart, (fieldOPC c).toNat ∈ part.opcodes ∧ part.isZero c = false := by
  rw [decode_eq_illegal_iff]
  cases hrow : rowOf c with
  | none => simp [decode_eq_command_iff, hrow]
  | some fi =>
    obtain ⟨f, i⟩ := fi
    obtain ⟨hopc, rfl⟩ := rowOf_opcode hrow
    simp [decode_eq_command_iff, hrow, hopc, Format.Meets, ZeroPart.mem_mustBeZero]

theorem ZeroPart.exists_iff {P : ZeroPart → Prop} :
    (∃ part, P part) ↔ P .z ∨ P .msel ∨ P .b ∨ P .dBit3 ∨ P .aBit3 ∨ P .bBit3 := by
  refine ⟨fun ⟨part, h⟩ => by cases part <;> simp [h], ?_⟩
  rintro (h | h | h | h | h | h) <;> exact ⟨_, h⟩

/-- Every opcode of a row requires Z to be 0 (R54, R55). -/
theorem ZeroPart.mem_opcodes_z {n : Nat} : n ∈ ZeroPart.z.opcodes ↔ ¬ (n = 0 ∨ 11 ≤ n) := by
  simp only [ZeroPart.opcodes, List.mem_cons, List.not_mem_nil, or_false]
  omega

theorem Machine.memWrite_cmd_idle {s : State} (h : s.busy = false) (c : Word32) :
    memWrite offCMD c s = (s.issue c, .ok) := by
  rw [memWrite_cmd, writeCmd_idle c h]

/-- Settles O6: the parts that must be 0, one by one, and the engine's turn on an illegal word. -/
theorem illegalWordsAreExactlyR59 : Obligations.IllegalWordsAreExactlyR59 := by
  refine ⟨fun c => ?_, fun c why hdecode => ⟨fun s hidle => ?_, fun s hpending => ?_⟩, _, rfl⟩
  · rw [decode_illegal_iff, rowOf_eq_none_iff, ZeroPart.exists_iff, ZeroPart.mem_opcodes_z]
    simp only [ZeroPart.isZero, ZeroPart.opcodes, isIndex3, beq_eq_false_iff_ne, Bool.not_eq_false', ← or_assoc]
    by_cases hreserved : (fieldOPC c).toNat = 0 ∨ 11 ≤ (fieldOPC c).toNat <;> simp [hreserved]
  · exact Machine.memWrite_cmd_idle hidle c
  · exact ⟨_, Machine.engineTurn_illegal hpending hdecode, Machine.finish_completed s _, Machine.finish_sameRegs s _⟩

end Sys2Proof

namespace Sys2Proof.Machine

open State

/-! ### Issue and completion (R63, R64) -/

/-- Settles O11: an idle core issues, and `issue` is the record update of R63. -/
theorem issueSetsTheCommandInFlight : Obligations.IssueSetsTheCommandInFlight :=
  fun s c hidle => ⟨s.issue c, memWrite_cmd_idle hidle c, rfl, rfl, rfl, rfl, rfl, ⟨fun _ => rfl, rfl⟩, rfl, rfl⟩

theorem tableWord_toNat (c : Word32) : tableWord 32 c.toNat = c := by
  rw [tableWord, Nat.mod_eq_of_lt c.isLt, BitVec.ofNat_toNat, BitVec.setWidth_eq]

/-- Settles O9: the head of the agenda is the engine, and the pending word decodes to the command (O3). -/
theorem issuedWordRuns : Obligations.IssuedWordRuns := by
  intro s i hwf
  have hagenda : (s.withFetchWord 32 (encode i).toNat).agenda = .engine :: s.agenda := rfl
  have hissued : { s.withFetchWord 32 (encode i).toNat with agenda := s.agenda } = s.issue (encode i) := by
    rw [withFetchWord, tableWord_toNat]
    rfl
  rw [step_cons hagenda, hissued]
  exact engineTurn_command (issue_pending s _) (decode_encode hwf)

theorem pointCode_cases (P : Point) : pointCode P = .ok ∨ pointCode P = .pointAtInfinity := by
  cases P
  · exact .inr rfl
  · exact .inl rfl

/-- MODINV ends with OK or NO_INVERSE (40_field_arith.md R74). -/
theorem execModinv_code (m : Modulus) (d a : RegIndex) (s : State) :
    ∃ t code, execModinv m d a s = .next t ∧ Completed s t code ∧ (code = .ok ∨ code = .noInverse) := by
  by_cases hzero : s.val a % modulus m = 0
  · exact ⟨_, _, if_pos hzero, finish_completed s .noInverse, .inr rfl⟩
  · obtain ⟨t, ht, hcomp⟩ := commitW_completed s d (invMod (modulus m) (s.val a % modulus m))
    exact ⟨t, .ok, (if_neg hzero).trans ht, hcomp, .inl rfl⟩

/-- PMUL ends with OK, POINT_AT_INFINITY or INVALID_SCALAR_RESULT (42_scalar_mult.md R85). -/
theorem finishPmul_code (s : State) (d : Index3) (r : PmulResult) :
    ∃ t code, finishPmul s d r = .next t ∧ Completed s t code ∧
      (code = .ok ∨ code = .pointAtInfinity ∨ code = .invalidScalarResult) := by
  obtain ⟨P, -, h⟩ | ⟨-, h⟩ | ⟨-, h⟩ := finishPmul_cases s d r
  · exact ⟨_, _, h, writePT_completed s d _ P, .inl rfl⟩
  · exact ⟨_, _, h, writePT_completed s d _ .infinity, .inr (.inl rfl)⟩
  · exact ⟨_, _, h, finish_completed s _, .inr (.inr rfl)⟩

/-- Settles O12, by the commit that ends each command. -/
theorem everyCommandCompletes : Obligations.EveryCommandCompletes := by
  intro i s
  have write (d : RegIndex) (v : Nat) : ∃ t code, commitW s d v = .next t ∧ Completed s t code ∧ code = .ok :=
    let ⟨t, ht, hcomp⟩ := commitW_completed s d v; ⟨t, .ok, ht, hcomp, rfl⟩
  have point (d : Index3) (P : Point) : ∃ t code, commitPT s d P = .next t ∧ Completed s t code ∧
      (code = .ok ∨ code = .pointAtInfinity) :=
    let ⟨t, ht, hcomp⟩ := commitPT_completed s d P; ⟨t, _, ht, hcomp, pointCode_cases P⟩
  cases i with
  | modadd m d a b => exact write d _
  | modsub m d a b => exact write d _
  | modmul m d a b => exact write d _
  | montmul m d a b => exact write d _
  | modred m d a => exact write d _
  | modinv m d a => exact execModinv_code m d a s
  | ldc d c => exact write d _
  | padd d a b => exact point (lowIndex d) _
  | pdbl d a => exact point (lowIndex d) _
  | pmul d k b => exact finishPmul_code s (lowIndex d) _

/-! ### SETINF and CLRINF (R61) -/

/-- The word that SETINF and CLRINF write back is INF with one flag replaced. -/
theorem infWithFlag_low (x : BitVec 8) (d : Index3) (b : Bool) :
    (infWithFlag (x.zeroExtend 32) d b).extractLsb' 0 8 = setBit8 x d b := by
  have low (y : BitVec 8) : (y.zeroExtend 32).extractLsb' 0 8 = y := by
    apply BitVec.eq_of_toNat_eq
    rw [BitVec.extractLsb'_toNat, Nat.shiftRight_zero, BitVec.zeroExtend_eq_setWidth,
      BitVec.toNat_setWidth_of_le (by decide), Nat.mod_eq_of_lt y.isLt]
  rw [infWithFlag, low, low]

theorem hostTransaction_writeInf {s : State} (h : s.busy = false) (v : Word32) :
    hostTransaction (.write offINF v) s = { s with inf := v.extractLsb' 0 8, response := some (.writeDone .ok) } := by
  rw [hostTransaction, memWrite_inf, writeInfReg_idle v h]

/-- On an idle core the two transactions of SETINF and CLRINF write one flag, and the port answers OK. -/
theorem performFlag_idle {s : State} (h : s.busy = false) (d : Index3) (b : Bool) :
    performFlag d b s = { s.writeInf d b with response := some (.writeDone .ok) } := by
  have hread : (hostTransaction (.read offINF) s).busy = false := h
  rw [performFlag, hostTransaction_writeInf hread, memRead_inf, infWithFlag_low]
  rfl

/-- Settles O55: the two transactions are one `writeInf`. -/
theorem setinfAndClrinfChangeOneFlag : Obligations.SetinfAndClrinfChangeOneFlag := by
  intro d x s hidle
  rw [performFlag_idle hidle]
  exact ⟨readInf_writeInf_self s d x, fun i hi => readInf_writeInf_ne s hi x, fun r => writeInf_readW s d x r⟩

/-! ### Pseudo-instructions (R62) -/

/-- `t` is `s` after a host line that writes the value `v` to W[d] only and leaves the core idle. -/
structure WroteW (s t : State) (d : RegIndex) (v : Nat) : Prop where
  value : (t.readW d).toNat = v
  frame : OnlyW s t d
  busy  : t.busy = false

theorem OnlyW.trans {s t u : State} {d : RegIndex} (h : OnlyW s t d) (h' : OnlyW t u d) : OnlyW s u d :=
  ⟨fun r hr => (h'.1 r hr).trans (h.1 r hr), h'.2.trans h.2⟩

theorem SameRegs.onlyW {s t u : State} {d : RegIndex} (h : SameRegs s t) (h' : OnlyW t u d) : OnlyW s u d :=
  ⟨fun r hr => (h'.1 r hr).trans (h.1 r), h'.2.trans h.2⟩

/-- A host line that issues on an idle core runs the command on the same registers (R61, log 17). -/
theorem perform_issue {s : State} (h : s.busy = false) {i : Instr} (hwf : WellFormed i) :
    ∃ u, SameRegs s u ∧ (HostAction.issue i).perform s = exec i u := by
  refine ⟨{ s.issue (encode i) with response := some (.writeDone .ok) }, ⟨fun _ => rfl, rfl⟩, ?_⟩
  rw [HostAction.perform, hostTransaction_issue h]
  exact engineTurn_command rfl (decode_encode hwf)

/-- A host line that issues a command ending in `commitW` writes its value. -/
theorem performAll_issue {s : State} (h : s.busy = false) {i : Instr} (hwf : WellFormed i) {d : RegIndex} {v : Nat}
    (hv : v < 2 ^ 256) (hexec : ∀ u, SameRegs s u → exec i u = commitW u d v) (rest : List HostAction) :
    ∃ t, performAll (.issue i :: rest) s = performAll rest t ∧ WroteW s t d v := by
  obtain ⟨u, hu, hperform⟩ := perform_issue h hwf
  obtain ⟨t, ht, hval, hframe, hcomp⟩ := commitW_spec u d hv
  have hnext : (HostAction.issue i).perform s = .next t := by rw [hperform, hexec u hu, ht]
  exact ⟨t, by rw [performAll, hnext], hval, hu.onlyW hframe, hcomp.busy⟩

section Lines

variable {s : State} (h : s.busy = false) (m : Modulus) (d a b : RegIndex) (rest : List HostAction)
include h

theorem performAll_modadd : ∃ t, performAll (.issue (.modadd m d a b) :: rest) s = performAll rest t ∧
    WroteW s t d (((s.readW a).toNat + (s.readW b).toNat) % modulus m) :=
  performAll_issue h rfl (mod_modulus_lt curveHasTheRequiredProperties m _)
    (fun u hu => by rw [exec, execModadd, hu.val, hu.val]; rfl) rest

theorem performAll_modsub : ∃ t, performAll (.issue (.modsub m d a b) :: rest) s = performAll rest t ∧
    WroteW s t d (subMod (modulus m) (s.readW a).toNat (s.readW b).toNat) :=
  performAll_issue h rfl ((imod_lt _ (modulus_prime m).pos).trans (modulus_lt m))
    (fun u hu => by rw [exec, execModsub, hu.val, hu.val]; rfl) rest

theorem performAll_modmul : ∃ t, performAll (.issue (.modmul m d a b) :: rest) s = performAll rest t ∧
    WroteW s t d ((s.readW a).toNat * (s.readW b).toNat % modulus m) :=
  performAll_issue h rfl (mod_modulus_lt curveHasTheRequiredProperties m _)
    (fun u hu => by rw [exec, execModmul, hu.val, hu.val]; rfl) rest

theorem performAll_montmul : ∃ t, performAll (.issue (.montmul m d a b) :: rest) s = performAll rest t ∧
    WroteW s t d (montMul (modulus m) (s.readW a).toNat (s.readW b).toNat) :=
  performAll_issue h rfl (mod_modulus_lt curveHasTheRequiredProperties m _)
    (fun u hu => by rw [exec, execMontmul, hu.val, hu.val]; rfl) rest

theorem performAll_ldc {c : RegIndex} (hc : isIndex3 c = true) :
    ∃ t, performAll (.issue (.ldc d c) :: rest) s = performAll rest t ∧
      WroteW s t d (constROM Config.curve (lowIndex c)) :=
  performAll_issue h (i := .ldc d c) hc (constROM_lt curveHasTheRequiredProperties _) (fun _ _ => rfl) rest

end Lines

theorem subMod_self {m : Nat} (x : Nat) : subMod m x x = 0 := by
  rw [subMod, sub_self, imod, Int.zero_emod, Int.toNat_zero]

section Pseudos

variable {s : State} (h : s.busy = false) (m : Modulus) (d a : RegIndex)
include h

/-- MODSQR (R62). -/
theorem performAll_modsqr : ∃ t, performAll (Pseudo.modsqr m d a).expand s = .next t ∧
    WroteW s t d ((s.readW a).toNat ^ 2 % modulus m) := by
  rw [pow_two]
  exact performAll_modmul h m d a a []

/-- MODDBL (R62). -/
theorem performAll_moddbl : ∃ t, performAll (Pseudo.moddbl m d a).expand s = .next t ∧
    WroteW s t d (2 * (s.readW a).toNat % modulus m) := by
  rw [two_mul]
  exact performAll_modadd h m d a a []

/-- CLR (R62). -/
theorem performAll_clr : ∃ t, performAll (Pseudo.clr d).expand s = .next t ∧ WroteW s t d 0 := by
  obtain ⟨t, ht, hwrote⟩ := performAll_modsub h .p d d d []
  rw [subMod_self] at hwrote
  exact ⟨t, ht, hwrote⟩

/-- MODNEG (R62): the first line clears W[d], which is not W[a], and the second subtracts W[a] from it. -/
theorem performAll_modneg (hne : d ≠ a) : ∃ t, performAll (Pseudo.modneg m d a).expand s = .next t ∧
    WroteW s t d (subMod (modulus m) 0 (s.readW a).toNat) := by
  obtain ⟨t, ht, hzero⟩ := performAll_modsub h m d a a [.issue (.modsub m d d a)]
  obtain ⟨u, hu, hneg⟩ := performAll_modsub hzero.busy m d d a []
  rw [hzero.value, subMod_self, hzero.frame.1 a hne.symm] at hneg
  exact ⟨u, ht.trans hu, hneg.value, hzero.frame.trans hneg.frame, hneg.busy⟩

end Pseudos

theorem cast_subMod_zero (m : Modulus) (x : Nat) : (subMod (modulus m) 0 x : Int) = -(x : Int) % (modulus m : Int) := by
  rw [subMod, imod_cast _ (modulus_prime m).pos, Nat.cast_zero, zero_sub]

/-- A Montgomery product with R² mod m is the product with R (R62, 40_field_arith.md R72). -/
theorem montMul_pow512 (m : Modulus) (x : Nat) :
    montMul (modulus m) x (2 ^ 512 % modulus m) = x * 2 ^ 256 % modulus m := by
  have hcop : Nat.gcd (modulus m) (2 ^ 256) = 1 :=
    (modulus_prime m).coprime_iff_not_dvd.2 fun hdvd =>
      pow256_mod_ne_zero curveHasTheRequiredProperties m (Nat.mod_eq_zero_of_dvd hdvd)
  have hmul : montMul (modulus m) x (2 ^ 512 % modulus m) * 2 ^ 256 ≡ x * 2 ^ 256 * 2 ^ 256 [MOD modulus m] := by
    rw [Nat.ModEq, montMul_mul_pow256 curveHasTheRequiredProperties, Nat.mul_mod_mod, mul_assoc, ← pow_add]
  have hlt : montMul (modulus m) x (2 ^ 512 % modulus m) < modulus m := Nat.mod_lt _ (modulus_prime m).pos
  exact Nat.mod_eq_of_lt hlt ▸ hmul.cancel_right_of_coprime hcop

/-- A point register whose flag is cleared reads its two coordinates, reduced (41_point_arith.md R76). -/
theorem readPT_writeInf_false {C : Curve} (s : State) (d : Index3) :
    (s.writeInf d false).readPT d C = .finite (s.val (xReg d) % C.p) (s.val (yReg d) % C.p) := by
  rw [readPT, readInf_writeInf_self]
  rfl

/-- LDG (R62): the two coordinates are those of the base point, already reduced, and the flag is cleared. -/
theorem performAll_ldg {s : State} (h : s.busy = false) (d : Index3) :
    ∃ t, performAll (Pseudo.ldg d).expand s = .next t ∧ t.readPT d = .finite Config.curve.gx Config.curve.gy ∧
      OnlyPT s t d ∧ t.busy = false := by
  obtain ⟨t, ht, hx⟩ := performAll_ldc h (xReg d) [.issue (.ldc (yReg d) 5#4), .clrInf d] (c := 4#4) rfl
  obtain ⟨u, hu, hy⟩ := performAll_ldc hx.busy (yReg d) [.clrInf d] (c := 5#4) rfl
  have hclr : performAll [.clrInf d] u = .next { u.writeInf d false with response := some (.writeDone .ok) } :=
    congrArg Host.Outcome.next (performFlag_idle hy.busy d false)
  refine ⟨_, ht.trans (hu.trans hclr), ?_, ⟨fun r hrx hry => ?_, fun i hi => ?_⟩, hy.busy⟩
  · refine (readPT_writeInf_false u d).trans ?_
    rw [val, val, hy.frame.1 _ (xReg_ne_yReg d d), hx.value, hy.value]
    rfl
  · exact (hy.frame.1 r hry).trans (hx.frame.1 r hrx)
  · refine (readInf_writeInf_ne u hi false).trans ?_
    rw [readInf, hy.frame.2, hx.frame.2, readInf]

/-- Settles O56: one lemma per expansion; R is invertible mod m, so MONTMUL's product law (R72) fixes the two
Montgomery conversions. -/
theorem pseudoInstructionResults : Obligations.PseudoInstructionResults := by
  intro s hidle
  refine ⟨fun m d a => ?_, fun m d a => ?_, fun d => ?_, fun m d a hwf => ?_, fun m d a r hr => ?_,
    fun m d a o ho => ?_, performAll_ldg hidle⟩
  · obtain ⟨t, ht, hval, hframe, hbusy⟩ := performAll_modsqr hidle m d a
    exact ⟨t, ht, hval, hframe, hbusy⟩
  · obtain ⟨t, ht, hval, hframe, hbusy⟩ := performAll_moddbl hidle m d a
    exact ⟨t, ht, hval, hframe, hbusy⟩
  · obtain ⟨t, ht, hval, hframe, hbusy⟩ := performAll_clr hidle d
    exact ⟨t, ht, BitVec.eq_of_toNat_eq hval, hframe, hbusy⟩
  · obtain ⟨t, ht, hval, hframe, hbusy⟩ := performAll_modneg hidle m d a (bne_iff_ne.1 hwf)
    exact ⟨t, ht, by rw [hval, cast_subMod_zero], hframe, hbusy⟩
  · obtain ⟨t, ht, hval, hframe, hbusy⟩ := performAll_montmul hidle m d a r []
    exact ⟨t, ht, by rw [hval, hr, montMul_pow512], hframe, hbusy⟩
  · obtain ⟨t, ht, hval, hframe, hbusy⟩ := performAll_montmul hidle m d a o []
    rw [ho] at hval
    refine ⟨t, ht, hval ▸ Nat.mod_lt _ (modulus_prime m).pos, ?_, hframe, hbusy⟩
    rw [hval, montMul_mul_pow256 curveHasTheRequiredProperties, mul_one]

end Sys2Proof.Machine

/-! # Proofs of the field arithmetic statements (40_field_arith.md)

The seven field commands on the default record. What each writes and how it ends is said once for every record
(`execModadd_spec` to `execLdc_spec`), and `curveHasTheRequiredProperties` brings it to the default; left are the
operands for which MODINV fails (R74) and the digits of the constants (R75). -/

namespace Sys2Proof.Machine

/-! ### Addition, subtraction, multiplication and reduction (R69 to R73) -/

/-- Settles O17, by the rule of MODADD on every record. -/
theorem modaddResult : Obligations.ModaddResult :=
  fun m d a b s => ⟨fieldOPC_encode _, execModadd_spec curveHasTheRequiredProperties m d a b s⟩

/-- Settles O18, by the rule of MODSUB on every record. -/
theorem modsubResult : Obligations.ModsubResult :=
  fun m d a b s => ⟨fieldOPC_encode _, execModsub_spec curveHasTheRequiredProperties m d a b s⟩

/-- Settles O19, by the rule of MODMUL on every record. -/
theorem modmulResult : Obligations.ModmulResult :=
  fun m d a b s => ⟨fieldOPC_encode _, execModmul_spec curveHasTheRequiredProperties m d a b s⟩

/-- Settles O20: r is the inverse that `montMul` multiplies by, and the product law is `montMul_mul_pow256`. -/
theorem montmulResult : Obligations.MontmulResult := by
  intro m d a b s
  obtain ⟨hge, hle, hone⟩ := montInverse_spec curveHasTheRequiredProperties m
  obtain ⟨t, ht, hval, hframe⟩ := execMontmul_spec curveHasTheRequiredProperties m d a b s
  have hlaw := montMul_mul_pow256 curveHasTheRequiredProperties m (s.readW a).toNat (s.readW b).toNat
  exact ⟨fieldOPC_encode _, t, _, ht, hge, hle, hone, hval, by rw [hval, hlaw], hframe⟩

/-- Settles O21, by the rule of MODRED on every record. -/
theorem modredResult : Obligations.ModredResult :=
  fun m d a s => ⟨fieldOPC_encode _, execModred_spec curveHasTheRequiredProperties m d a s⟩

/-! ### The inverse (R74) -/

/-- Settles O22, by the two rules of MODINV on every record. -/
theorem modinvResult : Obligations.ModinvResult :=
  fun m d a s => ⟨fieldOPC_encode _, execModinv_noInverse m d a s,
    execModinv_inverse curveHasTheRequiredProperties m d a s⟩

/-- Twice a modulus does not fit a register (R74). -/
theorem pow256_lt_two_mul_modulus (m : Modulus) : 2 ^ 256 < 2 * modulus m := by
  cases m <;> decide

/-- The multiples of a modulus that fit a register are 0 and the modulus (R74). -/
theorem mod_modulus_eq_zero_iff (m : Modulus) {x : Nat} (hx : x < 2 ^ 256) :
    x % modulus m = 0 ↔ x = 0 ∨ x = modulus m := by
  constructor
  · intro hzero
    obtain ⟨k, rfl⟩ := Nat.dvd_of_mod_eq_zero hzero
    have hk : k < 2 := by
      refine Nat.lt_of_mul_lt_mul_left (a := modulus m) ?_
      rw [mul_comm (modulus m) 2]
      exact hx.trans (pow256_lt_two_mul_modulus m)
    interval_cases k <;> simp
  · rintro (rfl | rfl)
    · exact Nat.zero_mod _
    · exact Nat.mod_self _

/-- MODINV ends with code 3 exactly when its source is 0 mod m (R74). -/
theorem execModinv_code_three_iff (m : Modulus) (d a : RegIndex) (s : State) :
    (∃ t, execModinv m d a s = .next t ∧ t.result = 3#4) ↔ (s.readW a).toNat % modulus m = 0 := by
  constructor
  · rintro ⟨t, ht, hresult⟩
    by_contra hne
    obtain ⟨u, hu, -, -, -, -, hcomp⟩ := execModinv_inverse curveHasTheRequiredProperties m d a s hne
    cases ht.symm.trans hu
    exact absurd (hcomp.result.symm.trans hresult) (by decide)
  · intro hzero
    obtain ⟨t, ht, -, hcomp⟩ := execModinv_noInverse m d a s hzero
    exact ⟨t, ht, hcomp.result⟩

/-- Settles O23: the code is 3 exactly for a multiple of m, and a register holds only two of them. -/
theorem noInverseOnlyForZeroAndModulus : Obligations.NoInverseOnlyForZeroAndModulus :=
  fun m d a s => (execModinv_code_three_iff m d a s).trans (mod_modulus_eq_zero_iff m (s.readW a).isLt)

/-! ### The constant load (R75) -/

/-- The word of a command whose operands its format does not admit is illegal (30_encoding.md R55, R59). -/
theorem decode_encode_illegal {i : Instr} (h : ¬ WellFormed i) : ∃ why, decode (encode i) = .illegal why := by
  refine decode_eq_illegal_iff.2 fun j hj => ?_
  obtain ⟨f, hrow, hmeets⟩ := decode_eq_command_iff.1 hj
  rw [rowOf_encode] at hrow
  cases hrow
  exact h ((meets_encode i).1 hmeets)

/-- Settles O24: the rule of LDC on every record, with the digits of the default; bit 3 makes the field ill-formed. -/
theorem ldcResult : Obligations.LdcResult := by
  intro d c s
  obtain ⟨t, ht, hval, hframe⟩ := execLdc_spec curveHasTheRequiredProperties d c s
  refine ⟨fieldOPC_encode _, fun hbit => decode_encode_illegal ?_, t, ht, ?_, hframe⟩
  · simp [WellFormed, Instr.wellFormed, isIndex3, hbit]
  · rw [hval]
    refine congrArg (fun rom : List Nat => rom[c.toNat % 8]?) ?_
    decide +kernel

end Sys2Proof.Machine

/-! # Proofs of the point arithmetic statements (41_point_arith.md)

Reads and writes of a point register (R76, R77), then doubling and addition: an equation for each case of `pdbl` (R79)
and `padd` (R78), and the equation that each slope solves. `execPdbl_spec` and `execPadd_spec` say what the commands
write and how they end; each case of a command is its function's equation for that case. -/

namespace Sys2Proof.Machine

open State

/-! ### A read of a point register (R76) -/

theorem readPT_of_flag {C : Curve} {s : State} {i : Index3} (h : s.readInf i = true) : s.readPT i C = .infinity :=
  if_pos h

theorem readPT_of_not_flag {C : Curve} {s : State} {i : Index3} (h : s.readInf i = false) :
    s.readPT i C = .finite (s.val (xReg i) % C.p) (s.val (yReg i) % C.p) :=
  if_neg (by simp [h])

theorem xReg_eq_ofNat (i : Index3) : xReg i = BitVec.ofNat 4 (2 * i.toNat) := by
  rw [← xReg_toNat, BitVec.ofNat_toNat, BitVec.setWidth_eq]

theorem yReg_eq_ofNat (i : Index3) : yReg i = BitVec.ofNat 4 (2 * i.toNat + 1) := by
  rw [← yReg_toNat, BitVec.ofNat_toNat, BitVec.setWidth_eq]

/-- Settles O25, by the two values of the flag. -/
theorem pointReadIsAReducedView : Obligations.PointReadIsAReducedView := by
  intro s i
  refine ⟨fun hflag => readPT_of_flag hflag, fun hflag => ?_⟩
  rw [← xReg_eq_ofNat, ← yReg_eq_ofNat]
  exact readPT_of_not_flag hflag

/-! ### A write of a point register (R77) -/

theorem xReg_inj {i k : Index3} : xReg i = xReg k ↔ i = k := by
  rw [← BitVec.toNat_inj, ← BitVec.toNat_inj, xReg_toNat, xReg_toNat]
  omega

theorem yReg_inj {i k : Index3} : yReg i = yReg k ↔ i = k := by
  rw [← BitVec.toNat_inj, ← BitVec.toNat_inj, yReg_toNat, yReg_toNat]
  omega

/-- A completion does not change which point a register holds. -/
theorem holdsPoint_finish_iff {s : State} {d : Index3} {k : ResultCode} {P : Point} :
    HoldsPoint (s.finish k) d P ↔ HoldsPoint s d P := by
  cases P <;> exact Iff.rfl

/-- A reduced point that a register holds is the point it reads as. -/
theorem readPT_of_holdsPoint {C : Curve} {t : State} {d : Index3} {P : Point} (h : HoldsPoint t d P)
    (hP : ReducedPoint C P) : t.readPT d C = P := by
  cases P with
  | infinity =>
    obtain ⟨-, -, hflag⟩ := h
    exact readPT_of_flag hflag
  | finite x y =>
    obtain ⟨hx, hy, hflag⟩ := h
    obtain ⟨hxp, hyp⟩ := hP
    rw [readPT_of_not_flag hflag, val, val, hx, hy, Nat.mod_eq_of_lt hxp, Nat.mod_eq_of_lt hyp]

/-- The frame of a point write, read as points: no two point registers share a data register or a flag. -/
theorem readPT_of_onlyPT {C : Curve} {s t : State} {d i : Index3} (h : OnlyPT s t d) (hi : i ≠ d) :
    t.readPT i C = s.readPT i C := by
  obtain ⟨hw, hinf⟩ := h
  have hx : t.readW (xReg i) = s.readW (xReg i) := hw _ (mt xReg_inj.1 hi) (xReg_ne_yReg i d)
  have hy : t.readW (yReg i) = s.readW (yReg i) := hw _ (xReg_ne_yReg d i).symm (mt yReg_inj.1 hi)
  rw [readPT, readPT, hinf i hi, val, val, val, val, hx, hy]

theorem writePT_eq_update (s : State) (d : Index3) (P : Point) :
    s.writePT d P = { s with w := (s.writePT d P).w, inf := (s.writePT d P).inf } := by
  cases P <;> rfl

/-- Settles O26: the written register holds the point, so it reads as the point, and the others are in the frame. -/
theorem pointWriteReadsBack : Obligations.PointWriteReadsBack := by
  intro s d P hP
  have hholds : HoldsPoint (s.writePT d P) d P := holdsPoint_finish_iff.1 (writePT_holds s d .ok hP)
  have hframe : OnlyPT s (s.writePT d P) d := writePT_onlyPT s d .ok P
  exact ⟨hholds, hframe, writePT_eq_update s d P, readPT_of_holdsPoint hholds hP, fun i => readPT_of_onlyPT hframe⟩

/-! ### The cases of doubling and addition (R78, R79) -/

section Cases
variable (C : Curve)

@[simp] theorem pdbl_infinity : pdbl C .infinity = .infinity := rfl

@[simp] theorem pdbl_zero (x : Nat) : pdbl C (.finite x 0) = .infinity := rfl

theorem pdbl_finite (x : Nat) {y : Nat} (h : y ≠ 0) : pdbl C (.finite x y) = chord C (tangentSlope C x y) x y x :=
  if_neg h

@[simp] theorem padd_infinity_left (Q : Point) : padd C .infinity Q = Q := by cases Q <;> rfl

@[simp] theorem padd_infinity_right (P : Point) : padd C P .infinity = P := by cases P <;> rfl

@[simp] theorem padd_self (P : Point) : padd C P P = pdbl C P := by
  cases P with
  | infinity => rfl
  | finite x y => exact if_pos ⟨rfl, rfl⟩

theorem padd_same_x (x : Nat) {y1 y2 : Nat} (h : y1 ≠ y2) : padd C (.finite x y1) (.finite x y2) = .infinity := by
  simp [padd, h]

theorem padd_chord {x1 x2 : Nat} (h : x1 ≠ x2) (y1 y2 : Nat) :
    padd C (.finite x1 y1) (.finite x2 y2) = chord C (chordSlope C x1 y1 x2 y2) x1 y1 x2 := by
  simp [padd, h]

/-- A line of slope 0 (41_point_arith.md R80). -/
theorem chord_zero (x1 y1 x2 : Nat) :
    chord C 0 x1 y1 x2 = .finite (imod (-(x1 : Int) - x2) C.p) (imod (-(y1 : Int)) C.p) := by
  simp [chord]

theorem chordSlope_same_y (x1 y x2 : Nat) : chordSlope C x1 y x2 y = 0 := by
  simp [chordSlope, imod]

theorem tangentSlope_eq_zero {x : Nat} (y : Nat) (h : (3 * x * x + C.a) % C.p = 0) : tangentSlope C x y = 0 := by
  simp [tangentSlope, h]

end Cases

/-! ### The slopes solve their equations (R78, R79) -/

section Slopes
variable {C : Curve} (hC : C.Ok)
include hC

/-- 2·y·λ = 3·x² + a mod p. -/
theorem tangentSlope_mod (x : Nat) {y : Nat} (hy : y < C.p) (h : y ≠ 0) :
    2 * y * tangentSlope C x y % C.p = (3 * x * x + C.a) % C.p := by
  refine (ZMod.natCast_eq_natCast_iff _ _ _).1 ?_
  push_cast
  exact tangentSlope_zmod hC hy h

/-- (x2 − x1)·λ = y2 − y1 mod p. -/
theorem chordSlope_emod {x1 x2 : Nat} (h1 : x1 < C.p) (h2 : x2 < C.p) (h : x1 ≠ x2) (y1 y2 : Nat) :
    ((x2 : Int) - x1) * chordSlope C x1 y1 x2 y2 % (C.p : Int) = ((y2 : Int) - y1) % (C.p : Int) := by
  refine (ZMod.intCast_eq_intCast_iff _ _ _).1 ?_
  push_cast
  exact chordSlope_zmod hC h1 h2 h

/-- The line through two points with different x coordinates has one slope, from whichever point it is computed. -/
theorem chordSlope_comm {x1 x2 : Nat} (h1 : x1 < C.p) (h2 : x2 < C.p) (h : x1 ≠ x2) (y1 y2 : Nat) :
    chordSlope C x1 y1 x2 y2 = chordSlope C x2 y2 x1 y1 := by
  have : Fact (Nat.Prime C.p) := ⟨hC.p_prime⟩
  have hne : (x2 : ZMod C.p) - x1 ≠ 0 := sub_ne_zero.2 fun hx => h (eq_of_zmod h2 h1 hx).symm
  refine eq_of_zmod (chordSlope_lt hC _ _ _ _) (chordSlope_lt hC _ _ _ _) (mul_left_cancel₀ hne ?_)
  linear_combination chordSlope_zmod hC (y1 := y1) (y2 := y2) h1 h2 h +
    chordSlope_zmod hC (y1 := y2) (y2 := y1) h2 h1 h.symm

end Slopes

/-- Numbers that agree in ZMod m have the same mathematical mod. -/
theorem imod_eq_of_zmod {m : Nat} {x y : Int} (h : (x : ZMod m) = y) : imod x m = imod y m :=
  congrArg Int.toNat ((ZMod.intCast_eq_intCast_iff _ _ _).1 h)

/-- The third point of a line is the same from either of two points on it: y = y1 + l·(x − x1) is also
y = y2 + l·(x − x2). -/
theorem chord_comm {C : Curve} {l x1 y1 x2 y2 : Nat} (h : ((x2 : ZMod C.p) - x1) * l = (y2 : ZMod C.p) - y1) :
    chord C l x1 y1 x2 = chord C l x2 y2 x1 := by
  have hx : imod ((l : Int) * l - x1 - x2) C.p = imod ((l : Int) * l - x2 - x1) C.p := by rw [sub_right_comm]
  have hy (x3 : Nat) :
      imod ((l : Int) * ((x1 : Int) - x3) - y1) C.p = imod ((l : Int) * ((x2 : Int) - x3) - y2) C.p := by
    refine imod_eq_of_zmod ?_
    push_cast
    linear_combination -h
  dsimp only [chord]
  rw [hx, hy]

/-! ### The commands PDBL and PADD (R81, R82) -/

/-- A command that commits the third point of a line ends as R78 and R79 say. -/
theorem endsAtChord {C : Curve} (hC : C.Ok) {s t : State} {d : Index3} {l x1 y1 x2 : Nat}
    (hholds : HoldsPoint t d (chord C l x1 y1 x2)) (hcomp : Completed s t (pointCode (chord C l x1 y1 x2))) :
    EndsAtChord s t d l x1 y1 x2 C :=
  ⟨_, _, imod_cast _ hC.p_prime.pos, imod_cast _ hC.p_prime.pos, hholds, hcomp⟩

/-- A finite point that a register reads as has reduced coordinates (R76). -/
theorem lt_of_readPT {s : State} {i : Index3} {x y : Nat} (h : s.readPT i = .finite x y) :
    x < Config.curve.p ∧ y < Config.curve.p := by
  have hred := readPT_reduced s i
  rwa [h] at hred

/-- Settles O27: one equation of `pdbl` for each case; the slope is `tangentSlope`. -/
theorem pdblResult : Obligations.PdblResult := by
  have hC : Config.curve.Ok := curveHasTheRequiredProperties
  intro d a s
  obtain ⟨t, ht, hholds, hframe, hcomp⟩ := execPdbl_spec hC d a s
  refine ⟨fieldOPC_encode _, t, ht, hframe, fun ha => ?_, fun x ha => ?_, fun x y ha hy => ?_⟩
  · rw [ha, pdbl_infinity] at hholds hcomp
    exact ⟨hholds, hcomp⟩
  · rw [ha, pdbl_zero] at hholds hcomp
    exact ⟨hholds, hcomp⟩
  · rw [ha, pdbl_finite _ x hy] at hholds hcomp
    obtain ⟨-, hyp⟩ := lt_of_readPT ha
    exact ⟨_, tangentSlope_lt hC x y, tangentSlope_mod hC x hyp hy, endsAtChord hC hholds hcomp⟩

/-- PADD of a register pair that reads as one point is PDBL (R83). -/
theorem exec_padd_eq_pdbl (d : RegIndex) {a b : RegIndex} {s : State}
    (h : s.readPT (lowIndex b) = s.readPT (lowIndex a)) : exec (.padd d a b) s = exec (.pdbl d a) s := by
  rw [exec, exec, execPadd, execPdbl, h, padd_self]

/-- Settles O28: one equation of `padd` for each case; the slope is `chordSlope`. -/
theorem paddResult : Obligations.PaddResult := by
  have hC : Config.curve.Ok := curveHasTheRequiredProperties
  intro d a b s
  obtain ⟨t, ht, hholds, hframe, hcomp⟩ := execPadd_spec hC d a b s
  refine ⟨fieldOPC_encode _, t, ht, hframe, fun ha hb => ?_, fun x y ha hb => ?_, fun x y ha hb => ?_,
    fun x y ha hb => ?_, fun x y1 y2 ha hb hy => ?_, fun x1 y1 x2 y2 ha hb hx => ?_⟩
  · rw [ha, hb, padd_infinity_left] at hholds hcomp
    exact ⟨hholds, hcomp⟩
  · rw [ha, hb, padd_infinity_left] at hholds hcomp
    exact ⟨hholds, hcomp⟩
  · rw [ha, hb, padd_infinity_right] at hholds hcomp
    exact ⟨hholds, hcomp⟩
  · exact (exec_padd_eq_pdbl d (hb.trans ha.symm)).symm.trans ht
  · rw [ha, hb, padd_same_x _ x hy] at hholds hcomp
    exact ⟨hholds, hcomp⟩
  · rw [ha, hb, padd_chord _ hx] at hholds hcomp
    obtain ⟨h1, -⟩ := lt_of_readPT ha
    obtain ⟨h2, -⟩ := lt_of_readPT hb
    exact ⟨_, chordSlope_lt hC _ _ _ _, chordSlope_emod hC h1 h2 hx y1 y2, endsAtChord hC hholds hcomp⟩

/-! ### The laws of addition (R83) -/

/-- `padd` is commutative; only a chord needs an argument, by its slope and its third point. -/
theorem padd_comm {C : Curve} (hC : C.Ok) {P Q : Point} (hP : ReducedPoint C P) (hQ : ReducedPoint C Q) :
    padd C P Q = padd C Q P := by
  cases P with
  | infinity => rw [padd_infinity_left, padd_infinity_right]
  | finite x1 y1 =>
    cases Q with
    | infinity => rw [padd_infinity_left, padd_infinity_right]
    | finite x2 y2 =>
      by_cases hx : x1 = x2
      · subst hx
        by_cases hy : y1 = y2
        · rw [hy]
        · rw [padd_same_x C x1 hy, padd_same_x C x1 (Ne.symm hy)]
      · obtain ⟨h1, -⟩ := hP
        obtain ⟨h2, -⟩ := hQ
        rw [padd_chord C hx, padd_chord C (Ne.symm hx), ← chordSlope_comm hC h1 h2 hx]
        exact chord_comm (chordSlope_zmod hC h1 h2 hx)

/-- Settles O29: the laws of `padd`, and for the commands the same laws at the points they read. -/
theorem pointAdditionLaws : Obligations.PointAdditionLaws := by
  refine ⟨fun C hC P Q hP hQ => ?_, fun d a b s => ⟨?_, exec_padd_eq_pdbl d rfl⟩⟩
  · exact ⟨padd_self C P, padd_infinity_right C P, padd_infinity_left C P, padd_comm hC hP hQ⟩
  · exact congrArg (commitPT s (lowIndex d))
      (padd_comm curveHasTheRequiredProperties (readPT_reduced s _) (readPT_reduced s _))

/-! ### The inverses in the slopes (R80) -/

/-- A number that is not 0 mod p has its inverse (00_scope.md R12). -/
theorem ne_zero_and_mul_invMod {C : Curve} (hC : C.Ok) {x : Nat} (hx : x % C.p ≠ 0) :
    x ≠ 0 ∧ x * invMod C.p x % C.p = 1 := by
  obtain ⟨-, -, hone⟩ := invMod_prime hC.p_prime hC.p_lt hx
  exact ⟨fun h0 => hx (by rw [h0, Nat.zero_mod]), hone⟩

/-- Only the code NO_INVERSE is 3 (60_exceptions.md R89). -/
theorem ResultCode.bits_eq_three_iff {code : ResultCode} : code.bits = 3#4 ↔ code = .noInverse := by
  cases code <;> decide

theorem Completed.result_ne_three {s t : State} {code : ResultCode} (h : Completed s t code)
    (hcode : code ≠ .noInverse) : t.result ≠ 3#4 := by
  rw [h.result]
  exact mt ResultCode.bits_eq_three_iff.1 hcode

/-- PADD and PDBL end with the code of a point. -/
theorem commitPT_result_ne_three {s t : State} {d : Index3} {P : Point} (h : commitPT s d P = .next t) :
    t.result ≠ 3#4 := by
  obtain ⟨u, hu, hcomp⟩ := commitPT_completed s d P
  cases h.symm.trans hu
  obtain hcode | hcode := pointCode_cases P
  · exact hcomp.result_ne_three (by simp [hcode])
  · exact hcomp.result_ne_three (by simp [hcode])

/-- PMUL ends with one of its own three codes (42_scalar_mult.md R85). -/
theorem finishPmul_result_ne_three {s t : State} {d : Index3} {r : PmulResult} (h : finishPmul s d r = .next t) :
    t.result ≠ 3#4 := by
  obtain ⟨u, code, hu, hcomp, hcode⟩ := finishPmul_code s d r
  cases h.symm.trans hu
  obtain rfl | rfl | rfl := hcode
  all_goals exact hcomp.result_ne_three (by simp)

/-- Settles O30: the denominators are not 0 mod p, no commit of a point command has the code NO_INVERSE, and a slope
with numerator 0 is 0. -/
theorem slopeInversesExist : Obligations.SlopeInversesExist := by
  have hC : Config.curve.Ok := curveHasTheRequiredProperties
  refine ⟨fun x1 x2 h1 h2 hx => ?_, fun y hyp hy => ?_, fun d a b s t hexec => ?_, fun x1 y x2 _ _ _ hx => ?_,
    fun x y _ _ hy hnum => ?_⟩
  · exact ne_zero_and_mul_invMod hC (chordDenominator_ne_zero h1 h2 hx)
  · exact ne_zero_and_mul_invMod hC (tangentDenominator_ne_zero hC hyp hy)
  · obtain hadd | hdbl | hmul := hexec
    · exact commitPT_result_ne_three hadd
    · exact commitPT_result_ne_three hdbl
    · exact finishPmul_result_ne_three hmul
  · rw [padd_chord _ hx, chordSlope_same_y, chord_zero]
  · have hdouble : -(x : Int) - x = -2 * x := by ring
    rw [pdbl_finite _ x hy, tangentSlope_eq_zero _ y hnum, chord_zero, hdouble]

end Sys2Proof.Machine

/-! # Proofs of the scalar multiplication statements (42_scalar_mult.md)

The loop of `pmul` (R84) by its invariant: before iteration i the accumulator is the sum of the doublings that the bits
below i select (`selectedSum`), and the running point is 2^i·P. So `pmul` answers INVALID or the end of that sum, and PMUL
commits a point as PADD and PDBL do, or writes nothing. -/

namespace Sys2Proof.Machine

/-! ### The loop (R84) -/

section Loop
variable (C : Curve) (k : Nat) (P : Point)

/-- The sum, from the low bit up, of the doublings 2^j·P for the set bits j < i of k. -/
def selectedSum (i : Nat) : Point :=
  ((List.range i).filter fun j => k.testBit j).foldl (fun acc j => padd C acc ((pdbl C)^[j] P)) .infinity

/-- The accumulation of iteration i takes the sum below bit i to the sum below bit i + 1. -/
theorem selectedSum_succ (i : Nat) :
    selectedSum C k P (i + 1) = pmulAcc C (k.testBit i) (selectedSum C k P i) ((pdbl C)^[i] P) := by
  rw [pmulAcc_eq, selectedSum, List.range_succ, List.filter_append, List.foldl_append]
  cases hbit : k.testBit i <;> simp [hbit, selectedSum]

variable {C k P} {l left i : Nat} {acc Q : Point}

/-- A doubling that gives Infinity while bits remain ends the loop. -/
theorem pmulLoop_of_pdbl_infinity (hi : i + 1 < l) (hdbl : pdbl C Q = .infinity) :
    pmulLoop C k l (left + 1) i acc Q = .invalid := by
  simp only [pmulLoop, if_pos hi, hdbl]

/-- While bits remain, an iteration accumulates and doubles. -/
theorem pmulLoop_of_pdbl_finite (hi : i + 1 < l) (hdbl : pdbl C Q ≠ .infinity) :
    pmulLoop C k l (left + 1) i acc Q = pmulLoop C k l left (i + 1) (pmulAcc C (k.testBit i) acc Q) (pdbl C Q) := by
  rw [pmulLoop, if_pos hi]
  cases hQ : pdbl C Q with
  | infinity => exact absurd hQ hdbl
  | finite x y => rfl

/-- The last iteration accumulates and does not double. -/
theorem pmulLoop_last (hi : ¬ i + 1 < l) :
    pmulLoop C k l 1 i acc Q = pmulEnd (pmulAcc C (k.testBit i) acc Q) := by
  rw [pmulLoop, if_neg hi, pmulLoop]

/-- A doubling still to come that is Infinity makes the loop INVALID, by induction on the iterations left. -/
theorem pmulLoop_invalid (hl : i + left = l) (h : ∃ j, i < j ∧ j < l ∧ (pdbl C)^[j] P = .infinity) :
    pmulLoop C k l left i acc ((pdbl C)^[i] P) = .invalid := by
  obtain ⟨j, hij, hjl, hj⟩ := h
  induction left generalizing i acc with
  | zero => omega
  | succ left ih =>
    have hnext : pdbl C ((pdbl C)^[i] P) = (pdbl C)^[i + 1] P := (Function.iterate_succ_apply' ..).symm
    by_cases hdbl : (pdbl C)^[i + 1] P = .infinity
    · exact pmulLoop_of_pdbl_infinity (by omega) (hnext.trans hdbl)
    · have hne : j ≠ i + 1 := by rintro rfl; exact hdbl hj
      rw [pmulLoop_of_pdbl_finite (by omega) (hnext ▸ hdbl), hnext]
      exact ih (by omega) (by omega)

/-- With no doubling still to come at Infinity, the loop ends with the sum of the selected doublings, by induction on the
iterations left. -/
theorem pmulLoop_selectedSum (hl : i + left = l) (h : ∀ j, i < j → j < l → (pdbl C)^[j] P ≠ .infinity) :
    pmulLoop C k l left i (selectedSum C k P i) ((pdbl C)^[i] P) = pmulEnd (selectedSum C k P l) := by
  induction left generalizing i with
  | zero => rw [← hl]; rfl
  | succ left ih =>
    by_cases hi : i + 1 < l
    · have hnext : pdbl C ((pdbl C)^[i] P) = (pdbl C)^[i + 1] P := (Function.iterate_succ_apply' ..).symm
      rw [pmulLoop_of_pdbl_finite hi (hnext ▸ h (i + 1) (by omega) hi), hnext, ← selectedSum_succ]
      exact ih (by omega) fun j hij => h j (by omega)
    · obtain rfl : left = 0 := by omega
      rw [pmulLoop_last hi, ← selectedSum_succ, ← hl]

/-- `pmul` when a doubling before the last bit is Infinity (R84). -/
theorem pmul_invalid (h : ∃ j, 1 ≤ j ∧ j < Nat.size k ∧ (pdbl C)^[j] P = .infinity) : pmul C k P = .invalid := by
  rw [pmul, bitlen_eq_size]
  exact pmulLoop_invalid (Nat.zero_add _) h

/-- `pmul` when every doubling before the last bit is finite (R84). -/
theorem pmul_selectedSum (h : ∀ j, 1 ≤ j → j < Nat.size k → (pdbl C)^[j] P ≠ .infinity) :
    pmul C k P = pmulEnd (selectedSum C k P (Nat.size k)) := by
  rw [pmul, bitlen_eq_size]
  exact pmulLoop_selectedSum (Nat.zero_add _) h

/-- What `pmul` ends with is a reduced point. -/
theorem reducedPoint_of_pmul (hC : C.Ok) {R : Point} (hP : ReducedPoint C P) (h : pmul C k P = pmulEnd R) :
    ReducedPoint C R := by
  cases R with
  | infinity => trivial
  | finite x y => exact (pmul_ok hC hP h).1

end Loop

/-! ### The command PMUL (R85) -/

section Command
variable (d : RegIndex) {k b : RegIndex} {s : State}

/-- An INVALID answer writes nothing. -/
theorem exec_pmul_invalid (h : pmul Config.curve (s.readW k).toNat (s.readPT (lowIndex b)) = .invalid) :
    ∃ t, exec (.pmul d k b) s = .next t ∧ SameRegs s t ∧ Completed s t .invalidScalarResult :=
  ⟨s.finish .invalidScalarResult, congrArg (finishPmul s (lowIndex d)) h, finish_sameRegs s _, finish_completed s _⟩

/-- Any other answer is a point, which PMUL commits as PADD and PDBL commit theirs. -/
theorem exec_pmul_eq_commitPT {R : Point}
    (h : pmul Config.curve (s.readW k).toNat (s.readPT (lowIndex b)) = pmulEnd R) :
    exec (.pmul d k b) s = commitPT s (lowIndex d) R := by
  refine (congrArg (finishPmul s (lowIndex d)) h).trans ?_
  cases R <;> rfl

/-- What PMUL leaves when the answer is a point, Infinity included. -/
theorem exec_pmul_point {R : Point}
    (h : pmul Config.curve (s.readW k).toNat (s.readPT (lowIndex b)) = pmulEnd R) :
    ∃ t, exec (.pmul d k b) s = .next t ∧ HoldsPoint t (lowIndex d) R ∧ OnlyPT s t (lowIndex d) ∧
      Completed s t (pointCode R) := by
  rw [exec_pmul_eq_commitPT d h]
  exact commitPT_spec s _ (reducedPoint_of_pmul curveHasTheRequiredProperties (readPT_reduced s _) h)

end Command

/-- Settles O32: `pmul` is INVALID or the end of the sum, and PMUL commits its answer. -/
theorem pmulIsTheSumOfSelectedDoublings : Obligations.PmulIsTheSumOfSelectedDoublings := by
  intro d k b s K double sum
  refine ⟨fieldOPC_encode _, ?_⟩
  by_cases hinf : ∃ i, 1 ≤ i ∧ i < Nat.size K ∧ double i = .infinity
  · obtain ⟨t, ht, hend⟩ := exec_pmul_invalid d (pmul_invalid hinf)
    obtain ⟨i, hge, hlt, hi⟩ := hinf
    exact ⟨t, ht, fun _ => hend, fun hfin => absurd hi (hfin i hge hlt)⟩
  · have hfin : ∀ i, 1 ≤ i → i < Nat.size K → double i ≠ .infinity :=
      fun i hge hlt hi => hinf ⟨i, hge, hlt, hi⟩
    obtain ⟨t, ht, hend⟩ := exec_pmul_point d (pmul_selectedSum hfin)
    rw [pointCode_eq_ite] at hend
    exact ⟨t, ht, fun h => absurd h hinf, fun _ => hend⟩

/-! ### The corner cases (R85, R87) -/

section Corners
variable (C : Curve)

theorem pmul_zero (P : Point) : pmul C 0 P = .infinity := rfl

/-- A scalar of 1 doubles nothing. -/
theorem pmul_one (P : Point) : pmul C 1 P = pmulEnd P := by
  cases P <;> rfl

variable {C}

/-- A scalar of at least 2 doubles the source, which fails when that gives Infinity. -/
theorem pmul_invalid_of_pdbl_infinity {k : Nat} {P : Point} (hk : 2 ≤ k) (hdbl : pdbl C P = .infinity) :
    pmul C k P = .invalid :=
  pmul_invalid ⟨1, le_rfl, Nat.lt_size.2 hk, hdbl⟩

/-- The doubling of a finite point with y ≠ 0 is finite. -/
theorem pdbl_ne_infinity (x : Nat) {y : Nat} (hy : y ≠ 0) : pdbl C (.finite x y) ≠ .infinity := by
  rw [pdbl_finite C x hy, chord]
  exact nofun

/-- A scalar of two bits doubles the source once. -/
theorem pmul_two_bits {k : Nat} {P : Point} (hsize : Nat.size k = 2) (hdbl : pdbl C P ≠ .infinity) :
    pmul C k P = pmulEnd (selectedSum C k P 2) := by
  rw [← hsize]
  refine pmul_selectedSum fun j hge hlt => ?_
  obtain rfl : j = 1 := by omega
  exact hdbl

theorem pmul_two {P : Point} (hdbl : pdbl C P ≠ .infinity) : pmul C 2 P = pmulEnd (pdbl C P) := by
  have hsum : selectedSum C 2 P 2 = padd C .infinity (pdbl C P) := rfl
  rw [pmul_two_bits (by decide) hdbl, hsum, padd_infinity_left]

theorem pmul_three {P : Point} (hdbl : pdbl C P ≠ .infinity) : pmul C 3 P = pmulEnd (padd C P (pdbl C P)) := by
  have hsum : selectedSum C 3 P 2 = padd C (padd C .infinity P) (pdbl C P) := rfl
  rw [pmul_two_bits (by decide) hdbl, hsum, padd_infinity_left]

end Corners

/-- Settles O33: `pmul` at each corner, and PMUL commits its answer. -/
theorem pmulCornerCases : Obligations.PmulCornerCases := by
  intro d k b s
  refine ⟨fun hk => exec_pmul_point d (by rw [hk, pmul_zero]; rfl),
    fun x y hk hP => exec_pmul_point d (by rw [hk, hP, pmul_one]),
    fun hk hP => exec_pmul_point d (by rw [hk, hP, pmul_one]), fun hk hP => ?_, fun x y hk hP hy => ?_,
    fun x y hk hP hy => ?_⟩
  · refine exec_pmul_invalid d (pmul_invalid_of_pdbl_infinity hk ?_)
    obtain hP | ⟨x, hP⟩ := hP
    · rw [hP, pdbl_infinity]
    · rw [hP, pdbl_zero]
  · exact exec_pmul_eq_commitPT d (by rw [hk, pmul_two (hP ▸ pdbl_ne_infinity x hy)])
  · exact exec_pmul_eq_commitPT d (by rw [hk, hP, pmul_three (pdbl_ne_infinity x hy)])

end Sys2Proof.Machine

/-! # Proofs of the exception statements (60_exceptions.md)

The core never traps: every step answers a next state (R88). A command that fails writes no register (R95), and the
interrupt output is a level that follows IRQ_EN and DONE through each event of a step (R94, R96). -/

namespace Sys2Proof.Machine

open State

/-! ### Failed commands (R95) -/

/-- The outcome is a next state that reports OK or POINT_AT_INFINITY, or that holds the registers of `s`. -/
def SucceedsOrKeepsRegs (s : State) (o : Host.Outcome State Fault Refusal) : Prop :=
  ∃ t, o = .next t ∧ (t.result = ResultCode.ok.bits ∨ t.result = ResultCode.pointAtInfinity.bits ∨ SameRegs s t)

theorem commitW_succeedsOrKeepsRegs (s : State) (d : RegIndex) (v : Nat) : SucceedsOrKeepsRegs s (commitW s d v) :=
  ⟨_, rfl, .inl rfl⟩

theorem commitPT_succeedsOrKeepsRegs (s : State) (d : Index3) (P : Point) : SucceedsOrKeepsRegs s (commitPT s d P) := by
  obtain hcode | hcode := pointCode_cases P
  · exact ⟨_, rfl, .inl (congrArg ResultCode.bits hcode)⟩
  · exact ⟨_, rfl, .inr (.inl (congrArg ResultCode.bits hcode))⟩

/-- A command that raises a code keeps the registers. -/
theorem finish_succeedsOrKeepsRegs (s : State) (k : ResultCode) : SucceedsOrKeepsRegs s (.next (s.finish k)) :=
  ⟨_, rfl, .inr (.inr (finish_sameRegs s k))⟩

theorem execModinv_succeedsOrKeepsRegs (m : Modulus) (d a : RegIndex) (s : State) :
    SucceedsOrKeepsRegs s (execModinv m d a s) := by
  unfold execModinv
  dsimp only
  split
  · exact finish_succeedsOrKeepsRegs s .noInverse
  · exact commitW_succeedsOrKeepsRegs s d _

theorem finishPmul_succeedsOrKeepsRegs (s : State) (d : Index3) (r : PmulResult) :
    SucceedsOrKeepsRegs s (finishPmul s d r) := by
  cases r with
  | ok P => exact ⟨_, rfl, .inl rfl⟩
  | infinity => exact ⟨_, rfl, .inr (.inl rfl)⟩
  | invalid => exact finish_succeedsOrKeepsRegs s .invalidScalarResult

theorem exec_succeedsOrKeepsRegs (i : Instr) (s : State) : SucceedsOrKeepsRegs s (exec i s) := by
  cases i with
  | modadd m d a b => exact commitW_succeedsOrKeepsRegs s d _
  | modsub m d a b => exact commitW_succeedsOrKeepsRegs s d _
  | modmul m d a b => exact commitW_succeedsOrKeepsRegs s d _
  | montmul m d a b => exact commitW_succeedsOrKeepsRegs s d _
  | modred m d a => exact commitW_succeedsOrKeepsRegs s d _
  | modinv m d a => exact execModinv_succeedsOrKeepsRegs m d a s
  | ldc d c => exact commitW_succeedsOrKeepsRegs s d _
  | padd d a b => exact commitPT_succeedsOrKeepsRegs s (lowIndex d) _
  | pdbl d a => exact commitPT_succeedsOrKeepsRegs s (lowIndex d) _
  | pmul d k b => exact finishPmul_succeedsOrKeepsRegs s (lowIndex d) _

theorem engineTurn_succeedsOrKeepsRegs {s : State} (h : s.pending ≠ none) : SucceedsOrKeepsRegs s (engineTurn s) := by
  obtain ⟨c, hc⟩ := Option.ne_none_iff_exists'.1 h
  cases hd : decode c with
  | command i => rw [engineTurn_command hc hd]; exact exec_succeedsOrKeepsRegs i s
  | illegal why => rw [engineTurn_illegal hc hd]; exact finish_succeedsOrKeepsRegs s .illegalCmd

/-- Settles O13: a completion that does not keep the registers reports OK or POINT_AT_INFINITY, codes 0 and 1. -/
theorem failedCommandsWriteNothing : Obligations.FailedCommandsWriteNothing := by
  intro s t hpending hturn hfailed
  obtain ⟨u, hu, hok | hinf | hsame⟩ := engineTurn_succeedsOrKeepsRegs hpending <;> cases hturn.symm.trans hu
  · rw [hok] at hfailed; exact absurd hfailed (by decide)
  · rw [hinf] at hfailed; exact absurd hfailed (by decide)
  · exact hsame

/-! ### No step stops (R88) -/

theorem engineTurn_next (s : State) : ∃ t, engineTurn s = .next t := by
  by_cases hp : s.pending = none
  · exact ⟨s, engineTurn_none hp⟩
  · obtain ⟨t, -, ht, -⟩ := engineTurn_completes hp
    exact ⟨t, ht⟩

theorem takeMove_next (m : Move) (s : State) : ∃ t, takeMove m s = .next t := by
  cases m with
  | host tr => exact ⟨_, rfl⟩
  | engine => exact engineTurn_next s
  | hardReset => exact ⟨_, rfl⟩

/-- Every step answers a next state, from every state. -/
theorem step_next (s : State) : ∃ t, step s = .next t := by
  cases ha : s.agenda with
  | nil => rw [step_nil ha]; exact engineTurn_next s
  | cons m rest => rw [step_cons ha]; exact takeMove_next m _

/-- Settles O14, by induction on the number of steps. -/
theorem noRunStops : Obligations.NoRunStops := by
  intro s k
  induction k generalizing s with
  | zero => exact ⟨s, rfl⟩
  | succ k ih =>
    obtain ⟨t, ht⟩ := step_next s
    obtain ⟨u, hu⟩ := ih t
    exact ⟨u, (run_succ_of_step ht k).trans hu⟩

/-! ### What each event leaves the interrupt output (R94, R96) -/

theorem Completed.irq {s t : State} {code : ResultCode} (h : Completed s t code) : t.irq = s.irqEn := by
  rw [State.irq, h.irqEn, h.done, Bool.and_true]

theorem irq_writeStatus (s : State) (v : Word32) :
    (s.writeStatus v).irq = if v.getLsbD 1 then false else s.irq := by
  rw [State.irq, State.irq, writeStatus_irqEn, writeStatus_done]
  split
  · exact Bool.and_false _
  · rfl

theorem irq_issue (s : State) (c : Word32) : (s.issue c).irq = false := Bool.and_false _

theorem irq_resetCore (s : State) : s.resetCore.irq = false := rfl

section Events
variable {s t : State} (hstep : step s = .next t)
include hstep

theorem irq_of_completes (h : s.Completes) : t.irq = s.irqEn := by
  obtain ⟨hpending, hnil | ⟨rest, hengine⟩⟩ := h
  · obtain ⟨u, code, hu, hcomp⟩ := engineTurn_completes hpending
    cases hstep.symm.trans ((step_nil hnil).trans hu)
    exact hcomp.irq
  · obtain ⟨u, code, hu, hcomp⟩ := engineTurn_completes (s := { s with agenda := rest }) hpending
    cases hstep.symm.trans ((step_cons hengine).trans hu)
    exact hcomp.irq

/-- After a host write the interrupt output is that of the write's effect. -/
theorem irq_of_hostWrites {off : Offset} {v : Word32} (h : s.HostWrites off v) :
    ∃ rest, t.irq = (memWrite off v (s.withEnv rest s.response)).1.irq := by
  obtain ⟨rest, ha⟩ := h
  cases hstep.symm.trans (step_cons ha)
  exact ⟨rest, rfl⟩

theorem irq_of_writesCtrl {v : Word32} (h : s.HostWrites offCTRL v) (hv : v.getLsbD 1 = false) :
    t.irq = (v.getLsbD 0 && s.done) := by
  obtain ⟨rest, ht⟩ := irq_of_hostWrites hstep h
  rw [ht, memWrite_ctrl, writeCtrl_irqEn hv]
  rfl

theorem irq_of_writesStatus {v : Word32} (h : s.HostWrites offSTATUS v) (hv : v.getLsbD 1 = true) : t.irq = false := by
  obtain ⟨rest, ht⟩ := irq_of_hostWrites hstep h
  rw [ht, memWrite_status, irq_writeStatus, if_pos hv]

theorem irq_of_issues {v : Word32} (h : s.HostWrites offCMD v) (hb : s.busy = false) : t.irq = false := by
  obtain ⟨rest, ht⟩ := irq_of_hostWrites hstep h
  rw [ht, memWrite_cmd, writeCmd_idle (s := s.withEnv rest s.response) v hb, irq_issue]

theorem irq_of_resets (h : s.Resets) : t.irq = false := by
  obtain ⟨m, rest, ha, hm⟩ := h
  cases m with
  | engine => cases hm
  | hardReset =>
    cases hstep.symm.trans (step_cons ha)
    exact irq_resetCore _
  | host tr =>
    cases tr with
    | read off => cases hm
    | write off v =>
      obtain ⟨hoff, hv⟩ : off = offCTRL ∧ v.getLsbD 1 = true := by
        simpa only [Move.isReset, Transaction.isSoftReset, Bool.and_eq_true, beq_iff_eq] using hm
      subst hoff
      obtain ⟨rest', ht⟩ := irq_of_hostWrites hstep ⟨rest, ha⟩
      rw [ht, memWrite_ctrl_softReset _ hv, irq_resetCore]

end Events

/-! ### Which events change the interrupt output (R94, R96) -/

/-- The next step raises the interrupt output: a completion with IRQ_EN = 1, or a write to CTRL that enables it while
DONE = 1. -/
def State.RaisesIrq (s : State) : Prop :=
  (s.Completes ∧ s.irqEn = true) ∨
    (s.done = true ∧ ∃ v, s.HostWrites offCTRL v ∧ v.getLsbD 1 = false ∧ v.getLsbD 0 = true)

/-- The next step drops the interrupt output: an acknowledgement, an issue, a write to CTRL that masks it or a reset. -/
def State.DropsIrq (s : State) : Prop :=
  (∃ v, s.HostWrites offSTATUS v ∧ v.getLsbD 1 = true) ∨ s.Issues ∨
    (∃ v, s.HostWrites offCTRL v ∧ v.getLsbD 1 = false ∧ v.getLsbD 0 = false) ∨ s.Resets

/-- A completion shows IRQ_EN: the output rises when it is 1, and was 0 already when it is 0. -/
theorem irq_change_of_completion {s u t : State} {code : ResultCode} (hc : s.Completes) (hcomp : Completed u t code)
    (hirqEn : u.irqEn = s.irqEn) : FlagChange s.irq t.irq s.RaisesIrq s.DropsIrq := by
  have ht : t.irq = s.irqEn := hcomp.irq.trans hirqEn
  cases hen : s.irqEn with
  | false => exact .keep (by rw [ht, State.irq, hen, Bool.false_and])
  | true => exact .rise (ht.trans hen) (.inl ⟨hc, hen⟩)

/-- A write of `x` to IRQ_EN shows `x` AND DONE: it drops the output when `x` is 0, raises it when DONE is 1 too, and
else the output was 0 already. -/
theorem irq_change_of_writeIrqEn {s : State} {v : Word32} (h : s.HostWrites offCTRL v) (hv : v.getLsbD 1 = false) :
    FlagChange s.irq (v.getLsbD 0 && s.done) s.RaisesIrq s.DropsIrq := by
  cases hx : v.getLsbD 0 with
  | false => exact .fall rfl (.inr (.inr (.inl ⟨v, h, hv, hx⟩)))
  | true =>
    cases hdone : s.done with
    | false => exact .keep (by rw [State.irq, hdone, Bool.and_false, Bool.and_false])
    | true => exact .rise rfl (.inr ⟨hdone, v, h, hv, hx⟩)

/-- The interrupt output (60_exceptions.md R94). -/
theorem StepEvent.irq_change {s t : State} (h : StepEvent s t) : FlagChange s.irq t.irq s.RaisesIrq s.DropsIrq := by
  cases h with
  | completion hc hcomp => exact irq_change_of_completion hc hcomp rfl
  | hardReset ha => exact .fall rfl (.inr (.inr (.inr (resets_of_hardReset ha))))
  | softReset _ ha hv => exact .fall rfl (.inr (.inr (.inr (resets_of_softReset ha hv))))
  | writeIrqEn _ ha hv => exact irq_change_of_writeIrqEn ⟨_, ha⟩ hv
  | @writeStatus v _ _ ha =>
    change FlagChange s.irq (s.writeStatus v).irq _ _
    rw [irq_writeStatus]
    exact flagChange_of_writeOne fun hv => .inl ⟨v, ⟨_, ha⟩, hv⟩
  | @issue v _ _ hb ha => exact .fall (irq_issue s v) (.inr (.inl ⟨hb, v, _, ha⟩))
  | quiet | drop | writeInf | writeWord => exact .keep rfl

/-- Settles O54: the level after each event, and the rise and the fall read off the change of the output. -/
theorem interruptRisesAndFallsOnlyByItsEvents : Obligations.InterruptRisesAndFallsOnlyByItsEvents := by
  refine ⟨fun _ => rfl, fun s t hstep => ?_⟩
  have hchange := (stepEvent_of_step hstep).irq_change
  exact ⟨irq_of_completes hstep, fun _ => irq_of_writesCtrl hstep, fun _ => irq_of_writesStatus hstep,
    fun _ => irq_of_issues hstep, irq_of_resets hstep, hchange.of_rises, hchange.of_falls⟩

end Sys2Proof.Machine

/-! # Proofs of the reset statements (70_reset_and_hazards.md) -/

namespace Sys2Proof.Machine

/-- After a reset no command is pending, so the engine's turn changes nothing (70_reset_and_hazards.md R101, log 10). -/
theorem engineTurn_resetCore (s : State) : engineTurn s.resetCore = .next s.resetCore :=
  engineTurn_none (resetCore_pending s)

/-- Settles O50: the write ends in `resetCore`, which holds the reset values and leaves the engine nothing to complete. -/
theorem softResetDiscardsTheCommand : Obligations.SoftResetDiscardsTheCommand :=
  fun s _ hv => ⟨s.resetCore, memWrite_ctrl_softReset s hv, resetCore_atReset s, engineTurn_resetCore s⟩

end Sys2Proof.Machine
